-- ==== Sys2Proof/Config.lean ====
section
/-! DEFINITION. The implementation parameters of spec/00_scope.md rule R5, at the values the rule gives this hardware.
`PROGRAM` and `HOST` are arguments of construction and of a run, and stand in Machine/Ops.lean and Machine/Control.lean. -/

namespace Sys2Proof.Config

/-- `WORD_BITS` (R5, decision D1): the width of a cell, of `rb` and of every operand value. -/
abbrev wordBits : Nat := 64

/-- `ADDR_BITS` (R5, decision D3): the width of the unsigned address type. -/
abbrev addrBits : Nat := 64

/-- `AMAX` (R5): the highest valid address. -/
def amax : Nat := 2 ^ addrBits - 1

/-- `WMIN` (R5): the least word. -/
def wmin : Int := -2 ^ (wordBits - 1)

/-- `WMAX` (R5): the greatest word. -/
def wmax : Int := 2 ^ (wordBits - 1) - 1

end Sys2Proof.Config
end

