-- ==== Sys2Proof/Word.lean ====
section
/-! DEFINITION. The word of spec/00_scope.md rule R6: a two's-complement signed integer of `WORD_BITS` bits (R5), so that
every cell and register holds a value in `[WMIN, WMAX]` by its type. Rules compute on the integer `v.toInt`, exactly. -/

namespace Sys2Proof

/-- A word (R6, R10); its value in every rule is the signed integer `BitVec.toInt`. -/
abbrev Word := BitVec Config.wordBits

end Sys2Proof
end

