-- ==== Sys2Proof/Syntax.lean ====
section
/-! DEFINITION. The instruction of spec/30_encoding.md as typed data: the ten opcodes with one addressing mode per parameter
(R64, R65, R66: `Instruction{ tag, modes }`). The raw parameters are memory cells after the instruction word (R60), read by the
engine when it resolves operands, so they are no part of the decoded instruction. The fault kinds stand here too, since
decoding raises them. -/

namespace Sys2Proof

/-- The three addressing modes (R62). -/
inductive Mode where
  | position
  | immediate
  | relative
deriving DecidableEq, Repr

/-- The ten operation tags (R64). -/
inductive Tag where
  | add
  | multiply
  | input
  | output
  | jumpIfTrue
  | jumpIfFalse
  | lessThan
  | equals
  | adjustRelativeBase
  | halt
deriving DecidableEq, Repr

/-- A decoded instruction: one constructor per row of spec/opcode_table.json, with the mode of each parameter in parameter
order (R61, R65: sources first, destination last). -/
inductive Instr where
  | add (src1 src2 dst : Mode)
  | multiply (src1 src2 dst : Mode)
  | input (dst : Mode)
  | output (src : Mode)
  | jumpIfTrue (cond target : Mode)
  | jumpIfFalse (cond target : Mode)
  | lessThan (src1 src2 dst : Mode)
  | equals (src1 src2 dst : Mode)
  | adjustRelativeBase (src : Mode)
  | halt
deriving DecidableEq, Repr

/-- The seven fault kinds (spec/60_exceptions.md R170). -/
inductive FaultKind where
  | invalidAddress
  | invalidInstructionPointer
  | invalidOpcode
  | invalidMode
  | additionalDigits
  | immediateWriteDestination
  | arithmeticOverflow
deriving DecidableEq, Repr

/-- The arguments of `raise Fault(kind, value, param)` (spec/00_scope.md R8): what a check hands to fault entry. -/
structure Raise where
  kind : FaultKind
  value : Int
  param : Nat
deriving DecidableEq, Repr

end Sys2Proof
end

