-- ==== Sys2Proof/WellFormed.lean ====
section
/-! DEFINITION. Which decoded instructions are legal (spec/30_encoding.md R65, R68): a destination's mode is Position or
Relative, never Immediate. Sources may have any mode. -/

namespace Sys2Proof

/-- A destination's mode must be `Position` or `Relative` (R65). -/
def Mode.writable : Mode → Bool
  | .position => true
  | .immediate => false
  | .relative => true

/-- A legal instruction of R68: the destination parameter, where the opcode has one, is writable. -/
def Instr.wellFormed : Instr → Bool
  | .add _ _ dst => dst.writable
  | .multiply _ _ dst => dst.writable
  | .input dst => dst.writable
  | .output _ => true
  | .jumpIfTrue _ _ => true
  | .jumpIfFalse _ _ => true
  | .lessThan _ _ dst => dst.writable
  | .equals _ _ dst => dst.writable
  | .adjustRelativeBase _ => true
  | .halt => true

end Sys2Proof
end

