-- ==== Sys2Proof/Decode.lean ====
section
/-! DEFINITION. Decoding and encoding of the instruction word (spec/30_encoding.md R60 to R72), total on every word and
rejecting by the fault kind R66 names, and the assembly of R73 and R74. Both directions are written from the same tables:
the opcode map, the mode digits and the arities. -/

namespace Sys2Proof

/-- The opcode of a tag (R64, R70). -/
def Tag.opcode : Tag → Int
  | .add => 1
  | .multiply => 2
  | .input => 3
  | .output => 4
  | .jumpIfTrue => 5
  | .jumpIfFalse => 6
  | .lessThan => 7
  | .equals => 8
  | .adjustRelativeBase => 9
  | .halt => 99

/-- How many source operands a tag has (R64). -/
def Tag.sources : Tag → Nat
  | .add => 2
  | .multiply => 2
  | .input => 0
  | .output => 1
  | .jumpIfTrue => 2
  | .jumpIfFalse => 2
  | .lessThan => 2
  | .equals => 2
  | .adjustRelativeBase => 1
  | .halt => 0

/-- `DEST` (R66): the index of the destination parameter, where the tag has one. -/
def Tag.dest : Tag → Option Nat
  | .add => some 3
  | .multiply => some 3
  | .input => some 1
  | .output => none
  | .jumpIfTrue => none
  | .jumpIfFalse => none
  | .lessThan => some 3
  | .equals => some 3
  | .adjustRelativeBase => none
  | .halt => none

/-- How many destination operands a tag has (R64). -/
def Tag.destinations (t : Tag) : Nat := if t.dest.isSome then 1 else 0

/-- `ARITY` (R64, R66): sources plus destinations. -/
def Tag.arity (t : Tag) : Nat := t.sources + t.destinations

/-- Every tag, in the opcode map's order (R70). -/
def Tag.all : List Tag :=
  [.add, .multiply, .input, .output, .jumpIfTrue, .jumpIfFalse, .lessThan, .equals, .adjustRelativeBase, .halt]

/-- The operation of a decoded instruction. -/
def Instr.tag : Instr → Tag
  | .add _ _ _ => .add
  | .multiply _ _ _ => .multiply
  | .input _ => .input
  | .output _ => .output
  | .jumpIfTrue _ _ => .jumpIfTrue
  | .jumpIfFalse _ _ => .jumpIfFalse
  | .lessThan _ _ _ => .lessThan
  | .equals _ _ _ => .equals
  | .adjustRelativeBase _ => .adjustRelativeBase
  | .halt => .halt

/-- The modes of a decoded instruction's parameters, parameter 1 first. -/
def Instr.modes : Instr → List Mode
  | .add a b d => [a, b, d]
  | .multiply a b d => [a, b, d]
  | .input d => [d]
  | .output a => [a]
  | .jumpIfTrue a b => [a, b]
  | .jumpIfFalse a b => [a, b]
  | .lessThan a b d => [a, b, d]
  | .equals a b d => [a, b, d]
  | .adjustRelativeBase a => [a]
  | .halt => []

/-- `digit(q, i)` (spec/00_scope.md R7): the decimal digit of weight `10^i`, with truncated division and remainder. -/
def digit (q : Int) (i : Nat) : Int := (q.tdiv (10 ^ i)).tmod 10

/-- The digit that encodes a mode (R62). -/
def Mode.digit : Mode → Int
  | .position => 0
  | .immediate => 1
  | .relative => 2

/-- `MODE` (R62, R66): the mode a digit names, if any. -/
def modeOfDigit (d : Int) : Option Mode :=
  [Mode.position, Mode.immediate, Mode.relative].find? (fun m => m.digit = d)

/-- `TAG` (R66, R70): the tag an opcode field names, if any. -/
def tagOfOpcode (op : Int) : Option Tag := Tag.all.find? (fun t => t.opcode = op)

/-- One turn of R66's mode loop: the mode of parameter `k`, or `InvalidMode`. -/
def modeAt (w q : Int) (k : Nat) : Except Raise Mode :=
  match modeOfDigit (digit q (k - 1)) with
  | some m => .ok m
  | none => .error ⟨.invalidMode, w, k⟩

/-- R66's excess check: a non-zero digit above the last parameter's mode digit is `AdditionalDigits`. -/
def noExcessDigits (w q : Int) (n : Nat) : Except Raise Unit :=
  if q.tdiv (10 ^ n) = 0 then .ok () else .error ⟨.additionalDigits, w, 0⟩

/-- R66's destination check: an Immediate destination is `ImmediateWriteDestination`. -/
def destinationWritable (w : Int) (k : Nat) (m : Mode) : Except Raise Unit :=
  if m.writable then .ok () else .error ⟨.immediateWriteDestination, w, k⟩

/-- The format `arity3_len4` (R60), whose third parameter is the destination (R65). -/
def decodeWriter (w q : Int) (make : Mode → Mode → Mode → Instr) : Except Raise Instr := do
  let m1 ← modeAt w q 1
  let m2 ← modeAt w q 2
  let m3 ← modeAt w q 3
  noExcessDigits w q 3
  destinationWritable w 3 m3
  return make m1 m2 m3

/-- The format `arity2_len3` (R60): two sources. -/
def decodeJump (w q : Int) (make : Mode → Mode → Instr) : Except Raise Instr := do
  let m1 ← modeAt w q 1
  let m2 ← modeAt w q 2
  noExcessDigits w q 2
  return make m1 m2

/-- The format `arity1_len2` (R60) with one source. -/
def decodeOneSource (w q : Int) (make : Mode → Instr) : Except Raise Instr := do
  let m1 ← modeAt w q 1
  noExcessDigits w q 1
  return make m1

/-- The format `arity1_len2` (R60) with one destination (R65: Input). -/
def decodeOneDestination (w q : Int) (make : Mode → Instr) : Except Raise Instr := do
  let m1 ← modeAt w q 1
  noExcessDigits w q 1
  destinationWritable w 1 m1
  return make m1

/-- The format `arity0_len1` (R60). -/
def decodeNullary (w q : Int) (i : Instr) : Except Raise Instr := do
  noExcessDigits w q 0
  return i

/-- R66 after the opcode is known: the modes in parameter order, then the excess digits, then the destination. -/
def decodeFields (t : Tag) (w q : Int) : Except Raise Instr :=
  match t with
  | .add => decodeWriter w q .add
  | .multiply => decodeWriter w q .multiply
  | .input => decodeOneDestination w q .input
  | .output => decodeOneSource w q .output
  | .jumpIfTrue => decodeJump w q .jumpIfTrue
  | .jumpIfFalse => decodeJump w q .jumpIfFalse
  | .lessThan => decodeWriter w q .lessThan
  | .equals => decodeWriter w q .equals
  | .adjustRelativeBase => decodeOneSource w q .adjustRelativeBase
  | .halt => decodeNullary w q .halt

/-- `decode` on the integer value of a word (R66, R67): the checks in the order written, the first that fails reported. -/
def decodeInt (v : Int) : Except Raise Instr :=
  if v < 0 then .error ⟨.invalidOpcode, v, 0⟩
  else
    match tagOfOpcode (v.tmod 100) with
    | none => .error ⟨.invalidOpcode, v, 0⟩
    | some t => decodeFields t v (v.tdiv 100)

/-- The decode function (R66): a function of the instruction word alone (R69). -/
def decode (w : Word) : Except Raise Instr := decodeInt w.toInt

/-- `sum_{k=1..n} m_k * 10^(k-1)` (R68), the list starting with parameter 1. -/
def modeDigits : List Mode → Int
  | [] => 0
  | m :: ms => m.digit + 10 * modeDigits ms

/-- The integer value of an instruction's word (R68). -/
def encodeInt (i : Instr) : Int := i.tag.opcode + 100 * modeDigits i.modes

/-- The encoder (R68): an instruction encodes to exactly one word. -/
def encode (i : Instr) : Word := BitVec.ofInt Config.wordBits (encodeInt i)

/-- An assembled operand (R73): its mode and its raw cell, `#v`, `[v]` or `[rb+v]`. -/
structure AsmOperand where
  mode : Mode
  raw : Word
deriving DecidableEq, Repr

/-- What the assembler writes for one instruction (R73): the instruction word, then the raw values. -/
def assemble (i : Instr) (raws : List Word) : List Word := encode i :: raws

/-- The pseudo-instruction `Jump t` (R74): `JumpIfTrue #1, t`. -/
def assembleJump (t : AsmOperand) : List Word := assemble (.jumpIfTrue .immediate t.mode) [1, t.raw]

/-- The pseudo-instruction `Move s, d` (R74): `Add s, #0, d`. -/
def assembleMove (s d : AsmOperand) : List Word := assemble (.add s.mode .immediate d.mode) [s.raw, 0, d.raw]

/-- The pseudo-instruction `Nop` (R74): `JumpIfTrue #0, #0`. -/
def assembleNop : List Word := assemble (.jumpIfTrue .immediate .immediate) [0, 0]

/-- The cells an opcode-table number stands for: cell `k` is the number's bits `64 k .. 64 k + 63`, the first cell the least
significant (DESIGN CHOICE, log entry 10: the architecture gives no bit layout of several cells, R47). -/
def tableCell (w k : Nat) : Word := BitVec.ofNat Config.wordBits (w / 2 ^ (Config.wordBits * k))

/-- The number's bits that the opcode table gives; every bit above them is 0. -/
def tableBits (nbits w : Nat) : Nat := w % 2 ^ nbits

/-- The instruction the decoder reads from an opcode-table number: decoding looks at the first cell only (R66, R72). -/
def decodeTableWord (nbits w : Nat) : Option Instr :=
  match decode (tableCell (tableBits nbits w) 0) with
  | .ok i => some i
  | .error _ => none

end Sys2Proof
end

