-- ==== Sys2Proof/Machine/State.lean ====
section
/-! DEFINITION. The state of one engine as plain data (spec/10_state.md R21 to R31), the host's side of the two ports as plain
data beside it, the reasons a step could stop, and the state after reset. -/

namespace Sys2Proof.Machine

/-- The memory of spec/20_memory.md R40: the cells that hold a non-zero word, as (address, word) pairs. An address that is not
listed reads 0, the reset value of every cell outside the program (R42). -/
abbrev Memory := List (Nat × Word)

/-- The one canonical form of a memory: addresses strictly rising, every listed address valid, no listed cell 0. -/
abbrev Memory.wf (m : Memory) : Prop :=
  m.Pairwise (fun c d => c.1 < d.1) ∧ ∀ c ∈ m, c.1 ≤ Config.amax ∧ c.2 ≠ 0

/-- The record a fault leaves (spec/10_state.md R25). -/
structure FaultRecord where
  /-- The fault's kind (spec/60_exceptions.md R170). -/
  kind : FaultKind
  /-- The kind's number (R170). -/
  code : Nat
  /-- The address of the faulting instruction's word (R171). -/
  ip : Nat
  /-- The offending integer, exact (R171). -/
  value : Int
  /-- The offending parameter, 0 when none (R171). -/
  param : Nat
deriving DecidableEq, Repr

/-- One port transfer, as the host sees it (spec/40_engine.md R99). -/
inductive PortEvent where
  /-- `in(v)`: Input took the word `v` (spec/42_io.md R121). -/
  | taken (v : Word)
  /-- `out(v)`: Output gave the word `v` (R125). -/
  | given (v : Word)
deriving DecidableEq, Repr

/-- The architectural state is the first five fields (R21). The last three are the model's own: the host behind the ports
(spec/42_io.md R120, R124), which no rule of the engine keeps (log entry 3). -/
structure State where
  /-- Memory (R28). -/
  mem : Memory
  /-- The instruction pointer, `0 .. 2^ADDR_BITS` (R22). -/
  ip : Nat
  /-- The relative base (R23). -/
  rb : Word
  /-- The halted flag (R24). -/
  halted : Bool
  /-- The sticky fault status (R25). -/
  fault : Option FaultRecord
  /-- The words the host has on offer at the input port, the next one first; empty is "no word yet" (R120). -/
  offered : List Word
  /-- Whether the host takes a word at the output port now (R124). -/
  sinkReady : Bool
  /-- The port transfers so far, oldest first (R120). -/
  trace : List PortEvent
deriving DecidableEq, Repr

/-- Why a step could stop with no next state. There is no such reason: every fault of the spec is a state change, the `fault`
field set and nothing else (spec/60_exceptions.md R183), and every later step of that engine leaves the state as it is
(spec/40_engine.md R101), so each is a next state (log entry 1). No step raises one, which is safe. -/
inductive Fault where
deriving DecidableEq, Repr

/-- Why a step could be refused. -/
inductive Refusal where
  /-- Raised by an arm of `exec` whose instruction has no meaning yet, by its mnemonic; safe. No arm raises it. -/
  | notModelled (mnemonic : String)
deriving DecidableEq, Repr

/-- How the stages of one instruction end without retiring it: a fault is raised (spec/00_scope.md R8), or the engine waits
on a port (spec/10_state.md R30). -/
inductive Stop where
  | raise (r : Raise)
  | wait
deriving DecidableEq, Repr

/-- The machine right after `new` with the empty program (spec/10_state.md R31, spec/70_reset_and_hazards.md R200), with a host
that offers no word yet and takes every word (DESIGN CHOICE, log entry 3). -/
def State.reset : State where
  mem := []
  ip := 0
  rb := 0
  halted := false
  fault := none
  offered := []
  sinkReady := true
  trace := []

end Sys2Proof.Machine
end

