-- ==== Sys2Proof/Machine/Ops.lean ====
section
/-! DEFINITION. The named operations over memory, registers and ports (spec/00_scope.md R8), taking a fault
(spec/60_exceptions.md R171, R183), fetching an instruction (spec/40_engine.md R90, R91), and construction
(spec/70_reset_and_hazards.md R200). -/

namespace Sys2Proof.Machine

/-! ### Memory -/

/-- `MemRead(a, 1)` (spec/20_memory.md R42): the word of cell `a`, 0 where no cell is listed. -/
def Memory.read (m : Memory) (a : Nat) : Word :=
  match m with
  | [] => 0
  | c :: rest => if c.1 = a then c.2 else Memory.read rest a

/-- The memory without cell `a`, which then reads 0. -/
def Memory.erase (m : Memory) (a : Nat) : Memory := m.filter (fun c => c.1 != a)

/-- The memory with a cell listed before the first cell of a higher address. -/
def Memory.insert (m : Memory) (a : Nat) (v : Word) : Memory :=
  match m with
  | [] => [(a, v)]
  | c :: rest => if a < c.1 then (a, v) :: c :: rest else c :: Memory.insert rest a v

/-- `MemWrite(a, 1, v)` (R43), keeping the canonical form: a cell that becomes 0 is no longer listed. -/
def Memory.write (m : Memory) (a : Nat) (v : Word) : Memory :=
  if v = 0 then m.erase a else (m.erase a).insert a v

/-- The memory that holds the words from address `a` on and 0 elsewhere (R28). -/
def Memory.load (a : Nat) (ws : List Word) : Memory :=
  match ws with
  | [] => []
  | v :: rest => if v = 0 then Memory.load (a + 1) rest else (a, v) :: Memory.load (a + 1) rest

/-! ### Registers -/

/-- `MemRead` on the state (R42). -/
def State.memRead (s : State) (a : Nat) : Word := s.mem.read a

/-- `MemWrite` on the state (R43). -/
def State.memWrite (s : State) (a : Nat) (v : Word) : State := { s with mem := s.mem.write a v }

/-- `ip <- v` (spec/00_scope.md R8). -/
def State.setIp (s : State) (v : Nat) : State := { s with ip := v }

/-- `rb <- v` (R8). -/
def State.setRb (s : State) (v : Word) : State := { s with rb := v }

/-- The sequential advance of an instruction of arity `n` (spec/40_engine.md R97): exact, never wrapping. -/
def State.advance (s : State) (n : Nat) : State := s.setIp (s.ip + 1 + n)

/-! ### The word range -/

/-- `fits_word(v)` (R6). -/
def fitsWord (v : Int) : Bool := decide (Config.wmin ≤ v) && decide (v ≤ Config.wmax)

/-- The word of an integer in range. -/
def toWord (v : Int) : Word := BitVec.ofInt Config.wordBits v

/-- `checked(v)` (spec/41_arithmetic.md R112): never a wrap, `ArithmeticOverflow` with the exact result instead. -/
def checked (v : Int) : Except Stop Word :=
  if fitsWord v then .ok (toWord v) else .error (.raise ⟨.arithmeticOverflow, v, 0⟩)

/-! ### The ports -/

/-- `InRead()` (spec/42_io.md R120): takes the word the host offers, or waits. -/
def State.inRead (s : State) : Except Stop (Word × State) :=
  match s.offered with
  | [] => .error .wait
  | v :: rest => .ok (v, { s with offered := rest, trace := s.trace ++ [.taken v] })

/-- `OutWrite(v)` (R124): gives the word to the host, or waits until the host takes it. -/
def State.outWrite (s : State) (v : Word) : Except Stop State :=
  if s.sinkReady then .ok { s with trace := s.trace ++ [.given v] } else .error .wait

/-! ### Faults -/

end Sys2Proof.Machine

/-- The numeric code of a fault kind (spec/60_exceptions.md R170, decision D14). -/
def Sys2Proof.FaultKind.code : Sys2Proof.FaultKind → Nat
  | .invalidAddress => 1
  | .invalidInstructionPointer => 2
  | .invalidOpcode => 3
  | .invalidMode => 4
  | .additionalDigits => 5
  | .immediateWriteDestination => 6
  | .arithmeticOverflow => 7

namespace Sys2Proof.Machine

/-- The record of a fault raised by the instruction at `ip` (R171). -/
def State.recordOf (s : State) (r : Raise) : FaultRecord :=
  { kind := r.kind, code := r.kind.code, ip := s.ip, value := r.value, param := r.param }

/-- Taking a fault (R175, R183): the record is the only state change. Control goes nowhere, and there is no return from it
(R176): nothing clears `fault`. -/
def State.takeFault (s : State) (r : Raise) : State := { s with fault := some (s.recordOf r) }

/-- The end of an instruction's stages (spec/40_engine.md R98): all of its effects, or the fault alone, or the wait, which
changes nothing (spec/10_state.md R30). -/
def finish (s : State) (stages : Except Stop State) : Host.Outcome State Fault Refusal :=
  match stages with
  | .ok t => .next t
  | .error (.raise r) => .next (s.takeFault r)
  | .error .wait => .next s

/-! ### Fetch -/

/-- What the first stage of a step finds. -/
inductive Fetched where
  /-- The engine is Halted or Faulted: the step changes nothing (spec/40_engine.md R101). -/
  | stopped
  /-- The fetch range or the decoder raises a fault (R91, spec/30_encoding.md R66). -/
  | raise (r : Raise)
  /-- A legal instruction. -/
  | run (i : Instr)
deriving DecidableEq, Repr

/-- Stage 1 of a step (R90): the fault and halted tests, the fetch range (R91), then the decoded word at `ip`. -/
def fetch (s : State) : Fetched :=
  if s.fault.isSome || s.halted then .stopped
  else if Config.amax < s.ip then .raise ⟨.invalidInstructionPointer, s.ip, 0⟩
  else
    match decode (s.memRead s.ip) with
    | .error r => .raise r
    | .ok i => .run i

/-! ### Construction -/

/-- `new(program, source, sink)` (spec/70_reset_and_hazards.md R200): refused when a value of the program is no word (D23) or
the program has more words than there are cells (log entry 9). The ports are bound to the host's present offer (log entry 3). -/
def State.construct (program : List Int) (offered : List Word) (sinkReady : Bool) : Option State :=
  if program.all fitsWord && decide (program.length ≤ Config.amax + 1) then
    some { State.reset with mem := Memory.load 0 (program.map toWord), offered := offered, sinkReady := sinkReady }
  else none

end Sys2Proof.Machine
end

