-- ==== Sys2Proof/Machine/Operands.lean ====
section
/-! DEFINITION. Operand resolution (spec/40_engine.md R92 to R96): the extent check, effective addresses, source and destination
operands, and the three operand shapes of the opcode table (spec/30_encoding.md R64, R65), each resolving its parameters in
order before the body runs. -/

namespace Sys2Proof.Machine

/-- `to_addr(v, kind, param)` (spec/20_memory.md R41). -/
def toAddr (v : Int) (kind : FaultKind) (param : Nat) : Except Stop Nat :=
  if v < 0 ∨ (Config.amax : Int) < v then .error (.raise ⟨kind, v, param⟩) else .ok v.toNat

/-- `raw_k` (spec/00_scope.md R9): the whole cell `ip + k` (spec/30_encoding.md R63). -/
def State.raw (s : State) (k : Nat) : Word := s.memRead (s.ip + k)

/-- The extent check (R92): the last cell of an instruction of arity `n` is a valid address. -/
def extentCheck (s : State) (n : Nat) : Except Stop Unit :=
  if Config.amax < s.ip + n then .error (.raise ⟨.invalidInstructionPointer, ((s.ip + n : Nat) : Int), 0⟩) else .ok ()

/-- `ea(k)` in Position mode (R93). -/
def positionAddress (s : State) (k : Nat) : Except Stop Nat := toAddr (s.raw k).toInt .invalidAddress k

/-- `ea(k)` in Relative mode (R93): the sum is exact. -/
def relativeAddress (s : State) (k : Nat) : Except Stop Nat := toAddr (s.rb.toInt + (s.raw k).toInt) .invalidAddress k

/-- `resolve_src(k)` (R94). -/
def resolveSrc (s : State) (k : Nat) (m : Mode) : Except Stop Word :=
  match m with
  | .immediate => .ok (s.raw k)
  | .position => do return s.memRead (← positionAddress s k)
  | .relative => do return s.memRead (← relativeAddress s k)

/-- `resolve_dst(k)` (R95). Immediate is unreachable, since decoding rejects it; an instruction given with it outside decoding
raises the fault that decoding raises (log entry 12). -/
def resolveDst (s : State) (k : Nat) (m : Mode) : Except Stop Nat :=
  match m with
  | .position => positionAddress s k
  | .relative => relativeAddress s k
  | .immediate => .error (.raise ⟨.immediateWriteDestination, (s.memRead s.ip).toInt, k⟩)

/-- Stage 3 for two sources and a destination. -/
def resolveWriter (s : State) (m1 m2 m3 : Mode) : Except Stop (Word × Word × Nat) := do
  extentCheck s 3
  let x ← resolveSrc s 1 m1
  let y ← resolveSrc s 2 m2
  let d ← resolveDst s 3 m3
  return (x, y, d)

/-- Stage 3 for two sources. -/
def resolveTwo (s : State) (m1 m2 : Mode) : Except Stop (Word × Word) := do
  extentCheck s 2
  let x ← resolveSrc s 1 m1
  let y ← resolveSrc s 2 m2
  return (x, y)

/-- Stage 3 for one source. -/
def resolveOne (s : State) (m1 : Mode) : Except Stop Word := do
  extentCheck s 1
  resolveSrc s 1 m1

/-- Stage 3 for one destination. -/
def resolveOneDst (s : State) (m1 : Mode) : Except Stop Nat := do
  extentCheck s 1
  resolveDst s 1 m1

/-- A three-parameter writing instruction (spec/41_arithmetic.md R110, spec/44_compare.md R145): both sources and the destination
resolve, then the body computes the word from the exact sources, then it is stored and `ip` advances by 4. -/
def execBinary (compute : Int → Int → Except Stop Word) (m1 m2 m3 : Mode) (s : State) :
    Host.Outcome State Fault Refusal :=
  finish s do
    let (x, y, d) ← resolveWriter s m1 m2 m3
    let r ← compute x.toInt y.toInt
    return (s.memWrite d r).advance 3

/-- A conditional jump (spec/43_jump.md R135, R137): the target is checked only when the jump is taken. -/
def execJump (taken : Int → Bool) (m1 m2 : Mode) (s : State) : Host.Outcome State Fault Refusal :=
  finish s do
    let (c, target) ← resolveTwo s m1 m2
    if taken c.toInt then
      return s.setIp (← toAddr target.toInt .invalidInstructionPointer 2)
    else
      return s.advance 2

end Sys2Proof.Machine
end

