-- ==== Sys2Proof/Machine/Arithmetic.lean ====
section
/-! DEFINITION. Add and Multiply (spec/41_arithmetic.md R110 to R114): exact signed arithmetic, checked before the store. -/

namespace Sys2Proof.Machine

/-- Add, opcode 1 (R113). -/
def execAdd (m1 m2 m3 : Mode) (s : State) : Host.Outcome State Fault Refusal :=
  execBinary (fun x y => checked (x + y)) m1 m2 m3 s

/-- Multiply, opcode 2 (R114). -/
def execMultiply (m1 m2 m3 : Mode) (s : State) : Host.Outcome State Fault Refusal :=
  execBinary (fun x y => checked (x * y)) m1 m2 m3 s

end Sys2Proof.Machine
end

