-- ==== Sys2Proof/Machine/Flags.lean ====
section
/-! DEFINITION. The only flag, `halted`, the engine status it forms with `fault` (spec/10_state.md R24, R26), and the words that
comparisons store in place of condition codes (spec/44_compare.md R145). -/

namespace Sys2Proof.Machine

/-- `halted <- true` (R24, spec/46_halt.md R160). -/
def State.setHalted (s : State) : State := { s with halted := true }

/-- The three engine statuses (R26). -/
inductive Status where
  | running
  | halted
  | faulted (r : FaultRecord)
deriving DecidableEq, Repr

/-- The status that `halted` and `fault` give (R26); `step` tests `fault` first (spec/40_engine.md R90). -/
def State.status (s : State) : Status :=
  match s.fault with
  | some r => .faulted r
  | none => if s.halted then .halted else .running

/-- 1 when a relation holds and 0 when it does not (R145). -/
def truthWord (b : Bool) : Word := if b then 1 else 0

/-- The word LessThan stores (R146): a signed comparison. -/
def lessThanWord (x y : Int) : Word := truthWord (decide (x < y))

/-- The word Equals stores (R147). -/
def equalsWord (x y : Int) : Word := truthWord (decide (x = y))

/-- The condition of JumpIfTrue (spec/43_jump.md R138, decision D10). -/
def conditionTrue (c : Int) : Bool := decide (c ≠ 0)

/-- The condition of JumpIfFalse (R139). -/
def conditionFalse (c : Int) : Bool := decide (c = 0)

end Sys2Proof.Machine
end

