-- ==== Sys2Proof/Machine/Compare.lean ====
section
/-! DEFINITION. LessThan and Equals (spec/44_compare.md R145 to R147): the result goes to memory and cannot overflow. -/

namespace Sys2Proof.Machine

/-- LessThan, opcode 7 (R146). -/
def execLessThan (m1 m2 m3 : Mode) (s : State) : Host.Outcome State Fault Refusal :=
  execBinary (fun x y => .ok (lessThanWord x y)) m1 m2 m3 s

/-- Equals, opcode 8 (R147). -/
def execEquals (m1 m2 m3 : Mode) (s : State) : Host.Outcome State Fault Refusal :=
  execBinary (fun x y => .ok (equalsWord x y)) m1 m2 m3 s

end Sys2Proof.Machine
end

