-- ==== Sys2Proof/Machine/Halt.lean ====
section
/-! DEFINITION. Halt (spec/46_halt.md R160, R161). -/

namespace Sys2Proof.Machine

/-- Halt, opcode 99 (R160): stage 2, before the extent check and any resolution; `ip` stays at the Halt word. -/
def execHalt (s : State) : Host.Outcome State Fault Refusal := .next s.setHalted

end Sys2Proof.Machine
end

