-- ==== Sys2Proof/Machine/InputOutput.lean ====
section
/-! DEFINITION. Input and Output (spec/42_io.md R120 to R127): one port transfer, part of the step, or a wait that changes
nothing. Every fault comes before the transfer. -/

namespace Sys2Proof.Machine

/-- Input, opcode 3 (R121): the destination resolves before the port is asked. -/
def execInput (m1 : Mode) (s : State) : Host.Outcome State Fault Refusal :=
  finish s do
    let d ← resolveOneDst s m1
    let (v, t) ← s.inRead
    return (t.memWrite d v).advance 1

/-- Output, opcode 4 (R125). -/
def execOutput (m1 : Mode) (s : State) : Host.Outcome State Fault Refusal :=
  finish s do
    let v ← resolveOne s m1
    let t ← s.outWrite v
    return t.advance 1

end Sys2Proof.Machine
end

