-- ==== Sys2Proof/Machine/Jump.lean ====
section
/-! DEFINITION. JumpIfTrue and JumpIfFalse (spec/43_jump.md R135 to R139). -/

namespace Sys2Proof.Machine

/-- JumpIfTrue, opcode 5 (R138). -/
def execJumpIfTrue (m1 m2 : Mode) (s : State) : Host.Outcome State Fault Refusal :=
  execJump conditionTrue m1 m2 s

/-- JumpIfFalse, opcode 6 (R139). -/
def execJumpIfFalse (m1 m2 : Mode) (s : State) : Host.Outcome State Fault Refusal :=
  execJump conditionFalse m1 m2 s

end Sys2Proof.Machine
end

