-- ==== Sys2Proof/Machine/RelativeBase.lean ====
section
/-! DEFINITION. AdjustRelativeBase (spec/45_relbase.md R155): the only instruction that writes `rb`. -/

namespace Sys2Proof.Machine

/-- AdjustRelativeBase, opcode 9 (R155): operand and sum both use the old `rb`. -/
def execAdjustRelativeBase (m1 : Mode) (s : State) : Host.Outcome State Fault Refusal :=
  finish s do
    let x ← resolveOne s m1
    let r ← checked (s.rb.toInt + x.toInt)
    return (s.setRb r).advance 1

end Sys2Proof.Machine
end

