-- ==== Sys2Proof/Machine/Step.lean ====
section
/-! DEFINITION. One step (spec/40_engine.md R90, R101), and the placing of an opcode-table number where a step fetches. -/

namespace Sys2Proof.Machine

/-- One step (R90): a Halted or Faulted engine stays as it is (R101), a fetch or decode fault is taken (R183), and otherwise the
decoded instruction runs. -/
def step (s : State) : Host.Outcome State Fault Refusal :=
  match fetch s with
  | .stopped => .next s
  | .raise r => .next (s.takeFault r)
  | .run i => exec i s

/-- A cell of the number placed at `a`, where that address exists. -/
def State.placeCell (s : State) (a : Nat) (v : Word) : State := if a ≤ Config.amax then s.memWrite a v else s

/-- The state with an opcode-table number in the four cells from `ip` on (four cells are the longest instruction, R60), made
Running with a valid `ip` if it was not (log entry 11). It stands for the loading of a program from outside (log entry 8). -/
def State.withFetchWord (s : State) (nbits w : Nat) : State :=
  let b := tableBits nbits w
  let t := { s with halted := false, fault := none, ip := if s.ip ≤ Config.amax then s.ip else 0 }
  (((t.placeCell t.ip (tableCell b 0)).placeCell (t.ip + 1) (tableCell b 1)).placeCell (t.ip + 2) (tableCell b 2)).placeCell
    (t.ip + 3) (tableCell b 3)

end Sys2Proof.Machine
end

