-- ==== Sys2Proof/Machine/Control.lean ====
section
/-! DEFINITION. The control interface around the step: the step's label and result (spec/40_engine.md R99, R101), `run` under
fuel (R100, decision D16), the host's memory view (R102, D25), and the host behind the ports as a strategy over the trace of
transfers (spec/42_io.md R120). -/

namespace Sys2Proof.Machine

/-- The state a step answers; a step that answers none leaves the state as it is. -/
def nextState (s : State) : State :=
  match step s with
  | .next t => t
  | .fault _ => s
  | .refused _ => s

/-- The two instructions that use a port (R126). -/
def usesPort (i : Instr) : Bool :=
  match i.tag with
  | .input => true
  | .output => true
  | .add => false
  | .multiply => false
  | .jumpIfTrue => false
  | .jumpIfFalse => false
  | .lessThan => false
  | .equals => false
  | .adjustRelativeBase => false
  | .halt => false

/-- The engine waits on a port (spec/10_state.md R30): its next instruction is Input or Output, and the step neither faults nor
makes the transfer. -/
def waits (s : State) : Bool :=
  match fetch s with
  | .run i => usesPort i && (nextState s).fault.isNone && decide ((nextState s).trace = s.trace)
  | .raise _ => false
  | .stopped => false

/-- What the host sees of one step (R99). -/
inductive Label where
  | tau
  | input (v : Word)
  | output (v : Word)
  | halt
  | fault (r : FaultRecord)
deriving DecidableEq, Repr

/-- The label of a port transfer. -/
def PortEvent.label : PortEvent → Label
  | .taken v => .input v
  | .given v => .output v

/-- The label of the step from `s` (R99), read off what the step changed: none when no transition is enabled, in a Halted or
Faulted state or while the engine waits (R30). -/
def label (s : State) : Option Label :=
  match s.status with
  | .halted => none
  | .faulted _ => none
  | .running =>
    match (nextState s).status with
    | .faulted r => some (.fault r)
    | .halted => some .halt
    | .running =>
      match (nextState s).trace.drop s.trace.length with
      | e :: _ => some e.label
      | [] => if waits s then none else some .tau

/-- `Result<bool, EngineError>` (R101): `ok true` is "still runnable". -/
inductive StepResult where
  | ok (runnable : Bool)
  | err (r : FaultRecord)
deriving DecidableEq, Repr

/-- The result of one `step()` (R101); none while the engine waits on a port, since the call has not returned (R30). -/
def stepResult (s : State) : Option StepResult :=
  match (nextState s).status with
  | .faulted r => some (.err r)
  | .halted => some (.ok false)
  | .running => if waits s then none else some (.ok true)

/-- `Result<(), EngineError>`: what `run()` returns (R100). -/
inductive RunResult where
  | ok
  | err (r : FaultRecord)
deriving DecidableEq, Repr

/-- `run()` under fuel (R100, D16): steps until `Ok(false)` or `Err`. The result is none when `run` has not returned: the fuel
is spent, or the engine waits on a port. -/
def run (fuel : Nat) (s : State) : State × Option RunResult :=
  match fuel with
  | 0 => (s, none)
  | k + 1 =>
    match stepResult s with
    | none => (s, none)
    | some (.ok true) => run k (nextState s)
    | some (.ok false) => (nextState s, some .ok)
    | some (.err r) => (nextState s, some (.err r))

/-- The host's memory view between steps (R102, D25): any cell of the address space. -/
def State.hostRead (s : State) (a : Nat) : Option Word := if a ≤ Config.amax then some (s.memRead a) else none

/-- A host (spec/00_scope.md R5 `HOST`, spec/42_io.md R120): from the transfers so far, the next input word or "no word yet",
and whether the next output word is taken. -/
structure HostStrategy where
  source : List PortEvent → Option Word
  sink : List PortEvent → Bool

/-- The host answers at the ports between two steps: it sees the trace and nothing else of the engine. -/
def State.answeredBy (s : State) (h : HostStrategy) : State :=
  { s with offered := (h.source s.trace).toList, sinkReady := h.sink s.trace }

/-- `k` steps of the engine, the host answering before each. -/
def runWithHost (h : HostStrategy) (k : Nat) (s : State) : State :=
  match k with
  | 0 => s
  | k + 1 => runWithHost h k (nextState (s.answeredBy h))

/-- `k` steps of the engine with the ports as they stand. -/
def runSteps (k : Nat) (s : State) : State :=
  match k with
  | 0 => s
  | k + 1 => runSteps k (nextState s)

end Sys2Proof.Machine
end

