-- ==== Sys2Proof/Safety.lean ====
section
/-! DEFINITION. The terms the statements use: the running engine, operands as relations on integers (spec/40_engine.md R92 to
R95), the frames, the decode faults as a relation (spec/30_encoding.md R66), the invariant of the state, and the labelled
transition relation of R99 written from the rules as a relation, beside the executable step. -/

namespace Sys2Proof.Claims

open Sys2Proof.Machine

/-! ### Words, operands, extent -/

/-- `fits_word(v)` (spec/00_scope.md R6). -/
def InWord (v : Int) : Prop := Config.wmin ≤ v ∧ v ≤ Config.wmax

/-- The engine is Running (spec/10_state.md R26). -/
def Running (s : State) : Prop := s.fault = none ∧ s.halted = false

/-- Every cell of an instruction of arity `n` at `ip` is a valid address (spec/40_engine.md R92). -/
def Extent (s : State) (n : Nat) : Prop := s.ip + n ≤ Config.amax

/-- Before its range test, the effective address of parameter `k` in mode `m` is `v` (R93). Immediate mode has none. -/
def OperandAddress (s : State) (m : Mode) (k : Nat) (v : Int) : Prop :=
  match m with
  | .position => v = (s.memRead (s.ip + k)).toInt
  | .relative => v = s.rb.toInt + (s.memRead (s.ip + k)).toInt
  | .immediate => False

/-- Parameter `k` in mode `m` names no cell: its effective address `v` is no address (R93). -/
def BadOperand (s : State) (m : Mode) (k : Nat) (v : Int) : Prop :=
  OperandAddress s m k v ∧ (v < 0 ∨ (Config.amax : Int) < v)

/-- The value of source parameter `k` in mode `m` is the integer `x` (R94). -/
def SourceIs (s : State) (m : Mode) (k : Nat) (x : Int) : Prop :=
  match m with
  | .immediate => x = (s.memRead (s.ip + k)).toInt
  | .position => ∃ a : Nat, OperandAddress s .position k a ∧ a ≤ Config.amax ∧ x = (s.memRead a).toInt
  | .relative => ∃ a : Nat, OperandAddress s .relative k a ∧ a ≤ Config.amax ∧ x = (s.memRead a).toInt

/-- The address of destination parameter `k` in mode `m` is `d` (R95): the raw cell, or `rb` plus it, and valid. -/
def DestinationIs (s : State) (m : Mode) (k : Nat) (d : Nat) : Prop :=
  OperandAddress s m k d ∧ d ≤ Config.amax

/-- Parameter `k` is the first of the instruction's parameters that names no cell, at the integer `v` (R96). -/
def FirstBad (s : State) (i : Instr) (k : Nat) (v : Int) : Prop :=
  1 ≤ k ∧ (∃ m, i.modes[k - 1]? = some m ∧ BadOperand s m k v) ∧
    ∀ j m u, 1 ≤ j → j < k → i.modes[j - 1]? = some m → ¬ BadOperand s m j u

/-! ### Frames -/

/-- The host's side of the ports is unchanged: no transfer happened and the offers are as they were. -/
def SamePorts (s t : State) : Prop := t.offered = s.offered ∧ t.sinkReady = s.sinkReady ∧ t.trace = s.trace

/-- Every cell but `d` reads as before. -/
def OtherCells (s t : State) (d : Nat) : Prop := ∀ a, a ≠ d → t.memRead a = s.memRead a

/-- Every cell reads as before. -/
def AllCells (s t : State) : Prop := ∀ a, t.memRead a = s.memRead a

/-- The two status registers are unchanged. -/
def SameStatus (s t : State) : Prop := t.halted = s.halted ∧ t.fault = s.fault

/-! ### Writes, jumps, ports, runs -/

/-- The step from `s` retires the instruction it runs (spec/40_engine.md R98): it raises no fault, and it is a transition, so that
the engine does not wait (R99, spec/10_state.md R30). -/
def Retires (s : State) : Prop := (nextState s).fault = none ∧ label s ≠ none

/-- The step from `s` writes cell `d` (spec/20_memory.md R51: the writers are Add, Multiply, Input, LessThan and Equals): it retires
an instruction whose destination is `d`. A step that faults or waits writes no cell (spec/60_exceptions.md R183). -/
def Writes (s : State) (d : Nat) : Prop :=
  Retires s ∧ ∃ i k m, fetch s = .run i ∧ i.tag.dest = some k ∧ i.modes[k - 1]? = some m ∧ DestinationIs s m k d

/-- The instruction `i` is a jump that is taken, with the valid target `a` (spec/43_jump.md R138, R139). -/
def TakenJump (s : State) (i : Instr) (a : Nat) : Prop :=
  (∃ m1 m2 c, i = .jumpIfTrue m1 m2 ∧ SourceIs s m1 1 c ∧ c ≠ 0 ∧ SourceIs s m2 2 a) ∨
  (∃ m1 m2, i = .jumpIfFalse m1 m2 ∧ SourceIs s m1 1 0 ∧ SourceIs s m2 2 a)

/-- The words Input took, in order (spec/42_io.md R122). -/
def takenWords (trace : List PortEvent) : List Word :=
  trace.filterMap fun e =>
    match e with
    | .taken v => some v
    | .given _ => none

/-- The cells from `a` on hold the words. -/
def Holds (s : State) (a : Nat) (ws : List Word) : Prop := ∀ k, k < ws.length → s.memRead (a + k) = ws.getD k 0

/-! ### Faults -/

/-- The record of a fault at `ip` (spec/60_exceptions.md R171). -/
def record (s : State) (kind : FaultKind) (value : Int) (param : Nat) : FaultRecord :=
  ⟨kind, kind.code, s.ip, value, param⟩

/-- The state a fault leaves (R183): only `fault` differs. -/
def faulted (s : State) (kind : FaultKind) (value : Int) (param : Nat) : State :=
  { s with fault := some (record s kind value param) }

/-! ### Decoding -/

/-- Opcode, arity and destination parameter, as R64 and R66 tabulate them. -/
def opcodeTable : List (Int × Nat × Option Nat) :=
  [(1, 3, some 3), (2, 3, some 3), (3, 1, some 1), (4, 1, none), (5, 2, none)] ++
  [(6, 2, none), (7, 3, some 3), (8, 3, some 3), (9, 1, none), (99, 0, none)]

/-- The words of R68's list for one of the four three-parameter opcodes. -/
def writerWords (op : Int) : List Int :=
  [op, 100 + op, 200 + op, 1000 + op, 1100 + op, 1200 + op, 2000 + op, 2100 + op, 2200 + op] ++
  [20000 + op, 20100 + op, 20200 + op, 21000 + op, 21100 + op, 21200 + op, 22000 + op, 22100 + op, 22200 + op]

/-- The words of R68's list for one of the two jumps. -/
def jumpWords (op : Int) : List Int :=
  [op, 100 + op, 200 + op, 1000 + op, 1100 + op, 1200 + op, 2000 + op, 2100 + op, 2200 + op]

/-- The legal words (R68, `legal_words` of spec/opcode_table.json). -/
def legalWords : List Int :=
  writerWords 1 ++ writerWords 2 ++ [3, 203] ++ [4, 104, 204] ++ jumpWords 5 ++ jumpWords 6 ++ writerWords 7 ++ writerWords 8 ++
    [9, 109, 209] ++ [99]

/-- A word of integer value `v` has the opcode field of a table row of arity `n` and destination `dest`. -/
def HasRow (v : Int) (n : Nat) (dest : Option Nat) : Prop := 0 ≤ v ∧ (v.tmod 100, n, dest) ∈ opcodeTable

/-- The mode digit of parameter `k` (spec/30_encoding.md R61). -/
def modeDigit (v : Int) (k : Nat) : Int := ((v.tdiv 100).tdiv (10 ^ (k - 1))).tmod 10

/-- The faults of R66, each under exactly the condition and with the record arguments the rule gives it. -/
inductive DecodeFault (v : Int) : Raise → Prop
  /-- A negative word, or an opcode field that no row has. -/
  | opcode : (v < 0 ∨ ∀ n dest, (v.tmod 100, n, dest) ∉ opcodeTable) → DecodeFault v ⟨.invalidOpcode, v, 0⟩
  /-- The first mode digit above 2, among the row's parameters. -/
  | mode (n : Nat) (dest : Option Nat) (k : Nat) : HasRow v n dest → 1 ≤ k → k ≤ n → 2 < modeDigit v k →
      (∀ j, 1 ≤ j → j < k → modeDigit v j ≤ 2) → DecodeFault v ⟨.invalidMode, v, k⟩
  /-- Legal modes and a non-zero digit above them. -/
  | excess (n : Nat) (dest : Option Nat) : HasRow v n dest → (∀ j, 1 ≤ j → j ≤ n → modeDigit v j ≤ 2) →
      (v.tdiv 100).tdiv (10 ^ n) ≠ 0 → DecodeFault v ⟨.additionalDigits, v, 0⟩
  /-- Legal modes, no further digit, and an Immediate destination. -/
  | destination (n : Nat) (k : Nat) : HasRow v n (some k) → (∀ j, 1 ≤ j → j ≤ n → modeDigit v j ≤ 2) →
      (v.tdiv 100).tdiv (10 ^ n) = 0 → modeDigit v k = 1 → DecodeFault v ⟨.immediateWriteDestination, v, k⟩

/-! ### The invariant -/

/-- The record in `fault` describes the state it was raised in (R171): its code is its kind's, its `ip` is the engine's, and its
value and parameter are the ones the table gives its kind. -/
def RecordFits (s : State) (r : FaultRecord) : Prop :=
  r.code = r.kind.code ∧ r.ip = s.ip ∧
    match r.kind with
    | .invalidAddress => (r.value < 0 ∨ (Config.amax : Int) < r.value) ∧ 1 ≤ r.param ∧ r.param ≤ 3
    | .invalidInstructionPointer =>
      (r.param = 0 ∧ (Config.amax : Int) < r.value) ∨ (r.param = 2 ∧ r.value < 0)
    | .invalidOpcode => r.value = (s.memRead s.ip).toInt ∧ r.param = 0
    | .invalidMode => r.value = (s.memRead s.ip).toInt ∧ 1 ≤ r.param ∧ r.param ≤ 3
    | .additionalDigits => r.value = (s.memRead s.ip).toInt ∧ r.param = 0
    | .immediateWriteDestination => r.value = (s.memRead s.ip).toInt ∧ (r.param = 3 ∨ r.param = 1)
    | .arithmeticOverflow => ¬ InWord r.value ∧ r.param = 0

/-- What every state a run reaches has: a canonical memory, `ip` in its range (spec/10_state.md R22), one of the three engine
statuses (R26), and a fault record that fits (R25). -/
structure Inv (s : State) : Prop where
  memory : s.mem.wf
  ipRange : s.ip ≤ Config.amax + 1
  status : s.halted = true → s.fault = none
  fits : ∀ r, s.fault = some r → RecordFits s r

/-! ### The transition relation -/

/-- The engine is Running and the word at `ip` is the encoding of the legal instruction `i` (spec/40_engine.md R90, stage 1). -/
def At (s : State) (i : Instr) : Prop :=
  Running s ∧ s.ip ≤ Config.amax ∧ i.wellFormed = true ∧ s.memRead s.ip = encode i

/-- `At`, for an instruction whose cells are all valid addresses. -/
def Whole (s : State) (i : Instr) : Prop := At s i ∧ Extent s i.tag.arity

/-- The state after storing a result of integer value `v` in cell `d` and advancing over `n` parameters. -/
def stored (s : State) (d : Nat) (v : Int) (n : Nat) : State :=
  { s with mem := s.mem.write d (BitVec.ofInt 64 v), ip := s.ip + 1 + n }

/-- The transitions of the engine (R99), one constructor per rule and outcome; no label is "no transition that changes state":
Halted, Faulted, or waiting on a port (spec/10_state.md R30). -/
inductive Transition : State → Option Label → State → Prop
  /-- R101, last row. -/
  | staysFaulted (s r) : s.fault = some r → Transition s none s
  /-- R101, fourth row. -/
  | staysHalted (s) : s.fault = none → s.halted = true → Transition s none s
  /-- R91. -/
  | fetchRange (s) : Running s → Config.amax < s.ip →
      Transition s (some (.fault (record s .invalidInstructionPointer s.ip 0))) (faulted s .invalidInstructionPointer s.ip 0)
  /-- R66. -/
  | decodeFault (s kind v p) : Running s → s.ip ≤ Config.amax → DecodeFault (s.memRead s.ip).toInt ⟨kind, v, p⟩ →
      Transition s (some (.fault (record s kind v p))) (faulted s kind v p)
  /-- R92. -/
  | extent (s i v) : At s i → i ≠ .halt → v = (s.ip : Int) + i.tag.arity → (Config.amax : Int) < v →
      Transition s (some (.fault (record s .invalidInstructionPointer v 0))) (faulted s .invalidInstructionPointer v 0)
  /-- R93, R96. -/
  | operand (s i k v) : Whole s i → i ≠ .halt → FirstBad s i k v →
      Transition s (some (.fault (record s .invalidAddress v k))) (faulted s .invalidAddress v k)
  /-- R113. -/
  | add (s m1 m2 m3 x y d) : Whole s (.add m1 m2 m3) → SourceIs s m1 1 x → SourceIs s m2 2 y → DestinationIs s m3 3 d →
      InWord (x + y) → Transition s (some .tau) (stored s d (x + y) 3)
  /-- R113, R112. -/
  | addOverflow (s m1 m2 m3 x y d) : Whole s (.add m1 m2 m3) → SourceIs s m1 1 x → SourceIs s m2 2 y → DestinationIs s m3 3 d →
      ¬ InWord (x + y) →
      Transition s (some (.fault (record s .arithmeticOverflow (x + y) 0))) (faulted s .arithmeticOverflow (x + y) 0)
  /-- R114. -/
  | multiply (s m1 m2 m3 x y d) : Whole s (.multiply m1 m2 m3) → SourceIs s m1 1 x → SourceIs s m2 2 y →
      DestinationIs s m3 3 d → InWord (x * y) → Transition s (some .tau) (stored s d (x * y) 3)
  /-- R114, R112. -/
  | multiplyOverflow (s m1 m2 m3 x y d) : Whole s (.multiply m1 m2 m3) → SourceIs s m1 1 x → SourceIs s m2 2 y →
      DestinationIs s m3 3 d → ¬ InWord (x * y) →
      Transition s (some (.fault (record s .arithmeticOverflow (x * y) 0))) (faulted s .arithmeticOverflow (x * y) 0)
  /-- R121. -/
  | input (s m d v rest) : Whole s (.input m) → DestinationIs s m 1 d → s.offered = v :: rest →
      Transition s (some (.input v))
        { s with mem := s.mem.write d v, ip := s.ip + 2, offered := rest, trace := s.trace ++ [.taken v] }
  /-- R121, R30. -/
  | inputWaits (s m d) : Whole s (.input m) → DestinationIs s m 1 d → s.offered = [] → Transition s none s
  /-- R125. -/
  | output (s m) (v : Word) : Whole s (.output m) → SourceIs s m 1 v.toInt → s.sinkReady = true →
      Transition s (some (.output v)) { s with ip := s.ip + 2, trace := s.trace ++ [.given v] }
  /-- R125, R30. -/
  | outputWaits (s m x) : Whole s (.output m) → SourceIs s m 1 x → s.sinkReady = false → Transition s none s
  /-- R138, R137. -/
  | jumpIfTrueTaken (s m1 m2 c) (a : Nat) : Whole s (.jumpIfTrue m1 m2) → SourceIs s m1 1 c → c ≠ 0 → SourceIs s m2 2 a →
      Transition s (some .tau) { s with ip := a }
  /-- R137. -/
  | jumpIfTrueBad (s m1 m2 c v) : Whole s (.jumpIfTrue m1 m2) → SourceIs s m1 1 c → c ≠ 0 → SourceIs s m2 2 v → v < 0 →
      Transition s (some (.fault (record s .invalidInstructionPointer v 2))) (faulted s .invalidInstructionPointer v 2)
  /-- R138. -/
  | jumpIfTrueNot (s m1 m2 v) : Whole s (.jumpIfTrue m1 m2) → SourceIs s m1 1 0 → SourceIs s m2 2 v →
      Transition s (some .tau) { s with ip := s.ip + 3 }
  /-- R139, R137. -/
  | jumpIfFalseTaken (s m1 m2) (a : Nat) : Whole s (.jumpIfFalse m1 m2) → SourceIs s m1 1 0 → SourceIs s m2 2 a →
      Transition s (some .tau) { s with ip := a }
  /-- R137. -/
  | jumpIfFalseBad (s m1 m2 v) : Whole s (.jumpIfFalse m1 m2) → SourceIs s m1 1 0 → SourceIs s m2 2 v → v < 0 →
      Transition s (some (.fault (record s .invalidInstructionPointer v 2))) (faulted s .invalidInstructionPointer v 2)
  /-- R139. -/
  | jumpIfFalseNot (s m1 m2 c v) : Whole s (.jumpIfFalse m1 m2) → SourceIs s m1 1 c → c ≠ 0 → SourceIs s m2 2 v →
      Transition s (some .tau) { s with ip := s.ip + 3 }
  /-- R146. -/
  | lessThan (s m1 m2 m3 x y d) : Whole s (.lessThan m1 m2 m3) → SourceIs s m1 1 x → SourceIs s m2 2 y →
      DestinationIs s m3 3 d → Transition s (some .tau) (stored s d (if x < y then 1 else 0) 3)
  /-- R147. -/
  | equals (s m1 m2 m3 x y d) : Whole s (.equals m1 m2 m3) → SourceIs s m1 1 x → SourceIs s m2 2 y →
      DestinationIs s m3 3 d → Transition s (some .tau) (stored s d (if x = y then 1 else 0) 3)
  /-- R155. -/
  | adjust (s m x) (r : Word) : Whole s (.adjustRelativeBase m) → SourceIs s m 1 x → r.toInt = s.rb.toInt + x →
      Transition s (some .tau) { s with rb := r, ip := s.ip + 2 }
  /-- R155, R112. -/
  | adjustOverflow (s m x v) : Whole s (.adjustRelativeBase m) → SourceIs s m 1 x → v = s.rb.toInt + x → ¬ InWord v →
      Transition s (some (.fault (record s .arithmeticOverflow v 0))) (faulted s .arithmeticOverflow v 0)
  /-- R160. -/
  | halt (s) : At s .halt → Transition s (some .halt) { s with halted := true }

end Sys2Proof.Claims
end

