-- ==== Sys2Proof/Certificates/Slice0/Obligations.lean ====
section
/-! DEFINITION. The statements for the provers, each a proposition about the machine with the rule of spec/ it rests on. The
relations `SourceIs`, `DestinationIs` and `BadOperand` of Safety.lean give an operand's value or address as the raw cell, or the
raw cell plus `rb`, which is the expression the meanings resolve (spec/40_engine.md R93 to R95). -/

open Sys2Proof Sys2Proof.Machine Sys2Proof.Claims

/-- spec/30_encoding.md R68 (an inference the spec marks as its own): decode after encode is the identity on legal instructions. -/
def Obligations.DecodeInvertsEncode : Prop :=
  ∀ i : Instr, i.wellFormed = true → decode (encode i) = .ok i

/-- spec/30_encoding.md R68 (an inference the spec marks as its own): encode after decode is the identity on legal words. -/
def Obligations.DecodedWordIsItsEncoding : Prop :=
  ∀ (w : Word) (i : Instr), decode w = .ok i → i.wellFormed = true ∧ encode i = w

/-- The table of legal words of spec/30_encoding.md R68, derived by the spec from R61 and R66. -/
def Obligations.LegalWordsAreTheListedOnes : Prop :=
  (∀ w : Word, (∃ i, decode w = .ok i) ↔ w.toInt ∈ legalWords) ∧ legalWords.length = 99 ∧ legalWords.Nodup

/-- spec/30_encoding.md R66, R67 and R71; the order of the checks is the spec's decision D6 and the negative words are D5. -/
def Obligations.DecodeFaultsAreTheRulesFaults : Prop :=
  ∀ (w : Word) (r : Raise), decode w = .error r ↔ DecodeFault w.toInt r

/-- spec/30_encoding.md R69. -/
def Obligations.DecodedOpcodeIsWordModHundred : Prop :=
  (∀ (w : Word) (i : Instr), decode w = .ok i → i.tag.opcode = w.toInt.tmod 100) ∧
  ∀ s t : State, Running s → Running t → s.ip ≤ Config.amax → t.ip ≤ Config.amax → s.memRead s.ip = t.memRead t.ip →
    fetch s = fetch t

/-- The decoder vectors of spec/95_test_vectors.md L2.1 and the opcode map of spec/30_encoding.md R70. -/
def Obligations.WordsOfEveryFamilyDecode : Prop :=
  decode 1 = .ok (.add .position .position .position) ∧
  decode 1002 = .ok (.multiply .position .immediate .position) ∧
  decode 203 = .ok (.input .relative) ∧ decode 204 = .ok (.output .relative) ∧
  decode 1105 = .ok (.jumpIfTrue .immediate .immediate) ∧ decode 2206 = .ok (.jumpIfFalse .relative .relative) ∧
  decode 21107 = .ok (.lessThan .immediate .immediate .relative) ∧
  decode 1008 = .ok (.equals .position .immediate .position) ∧
  decode 109 = .ok (.adjustRelativeBase .immediate) ∧ decode 99 = .ok .halt

/-- spec/30_encoding.md R64. -/
def Obligations.ArityTableIsTheSpecs : Prop :=
  Tag.all.map (fun t => (t, t.opcode, t.sources, t.destinations, t.arity, 1 + t.arity)) =
      [(.add, 1, 2, 1, 3, 4), (.multiply, 2, 2, 1, 3, 4), (.input, 3, 0, 1, 1, 2), (.output, 4, 1, 0, 1, 2)] ++
      [(.jumpIfTrue, 5, 2, 0, 2, 3), (.jumpIfFalse, 6, 2, 0, 2, 3), (.lessThan, 7, 2, 1, 3, 4), (.equals, 8, 2, 1, 3, 4)] ++
      [(.adjustRelativeBase, 9, 1, 0, 1, 2), (.halt, 99, 0, 0, 0, 1)] ∧
  (∀ t : Tag, t ∈ Tag.all ∧ t.arity = t.sources + t.destinations) ∧
  ∀ i : Instr, i.modes.length = i.tag.arity

/-- spec/20_memory.md R43; the value is a word by its type. -/
def Obligations.WriteSetsOneCell : Prop :=
  ∀ (s : State) (a : Nat) (v : Word), a ≤ Config.amax →
    (s.memWrite a v).memRead a = v ∧ OtherCells s (s.memWrite a v) a ∧ (s.memWrite a v).ip = s.ip ∧
      (s.memWrite a v).rb = s.rb ∧ SameStatus s (s.memWrite a v) ∧ SamePorts s (s.memWrite a v)

/-- spec/20_memory.md R40 (memory is a total map) and spec/10_state.md R29 (which cells were touched is no state); the canonical list is the model's own form of it. -/
def Obligations.EqualReadsMeanEqualMemories : Prop :=
  ∀ m n : Memory, m.wf → n.wf → (∀ a, m.read a = n.read a) → m = n

/-- spec/20_memory.md R42; reading is total and changes nothing by its type. -/
def Obligations.UnwrittenCellsKeepTheirResetValue : Prop :=
  ∀ (program : List Int) (offered : List Word) (ready : Bool) (s : State) (k a : Nat),
    State.construct program offered ready = some s → a ≤ Config.amax → (∀ j, j < k → ¬ Writes (runSteps j s) a) →
      ((runSteps k s).memRead a).toInt = if a < program.length then program.getD a 0 else 0

/-- spec/70_reset_and_hazards.md R200 and spec/10_state.md R31; fault = none is the spec's decision D13, the refusal D23, and the length bound is the model's choice (log entry 9). -/
def Obligations.ConstructionGivesTheResetState : Prop :=
  ∀ (program : List Int) (offered : List Word) (ready : Bool),
    ((State.construct program offered ready).isSome = true ↔
      (∀ v ∈ program, InWord v) ∧ program.length ≤ Config.amax + 1) ∧
    ∀ s, State.construct program offered ready = some s →
      s.ip = 0 ∧ s.rb = 0 ∧ s.halted = false ∧ s.fault = none ∧
      (∀ a, a < program.length → (s.memRead a).toInt = program.getD a 0) ∧
      (∀ a, program.length ≤ a → s.memRead a = 0) ∧
      s.offered = offered ∧ s.sinkReady = ready ∧ s.trace = []

/-- spec/20_memory.md R44. -/
def Obligations.TrailingZerosAreInvisible : Prop :=
  ∀ (program : List Int) (n : Nat) (offered : List Word) (ready : Bool), program.length + n ≤ Config.amax + 1 →
    State.construct (program ++ List.replicate n 0) offered ready = State.construct program offered ready

/-- spec/10_state.md R22, R26 and R31. -/
def Obligations.ResetHasTheInvariant : Prop :=
  Inv State.reset

/-- spec/70_reset_and_hazards.md R200 with spec/10_state.md R22 and R26. -/
def Obligations.ConstructedEnginesHaveTheInvariant : Prop :=
  ∀ (program : List Int) (offered : List Word) (ready : Bool) (s : State),
    State.construct program offered ready = some s → Inv s

/-- spec/10_state.md R22, R25 and R26 and spec/60_exceptions.md R171, whose record is the spec's decision D13. -/
def Obligations.StepKeepsTheInvariant : Prop :=
  ∀ s t : State, Inv s → step s = .next t → Inv t

/-- spec/40_engine.md R90, stage 1. -/
def Obligations.StepRunsTheDecodedInstruction : Prop :=
  ∀ (s : State) (i : Instr), Running s → s.ip ≤ Config.amax → decode (s.memRead s.ip) = .ok i → step s = exec i s

/-- spec/40_engine.md R90 for the loading aid of the model (log entries 8, 10 and 11). -/
def Obligations.PlacedTableWordIsTheOneThatRuns : Prop :=
  ∀ (s : State) (nbits w : Nat) (i : Instr), decodeTableWord nbits w = some i →
    step (s.withFetchWord nbits w) = exec i (s.withFetchWord nbits w)

/-- spec/30_encoding.md R71 with spec/60_exceptions.md R171 and R183; the record is the spec's decision D13. -/
def Obligations.IllegalWordFaultsAtDecode : Prop :=
  ∀ (s : State) (r : Raise), Running s → s.ip ≤ Config.amax → decode (s.memRead s.ip) = .error r →
    step s = .next (faulted s r.kind r.value r.param)

/-- spec/70_reset_and_hazards.md R204. -/
def Obligations.ZeroCellFaultsAsInvalidOpcode : Prop :=
  ∀ s : State, Running s → s.ip ≤ Config.amax → s.memRead s.ip = 0 →
    step s = .next { s with fault := some ⟨.invalidOpcode, 3, s.ip, 0, 0⟩ }

/-- spec/40_engine.md R91, the spec's decision D8. -/
def Obligations.FetchAboveTheTopFaults : Prop :=
  ∀ s : State, Running s → Config.amax < s.ip →
    step s = .next { s with fault := some ⟨.invalidInstructionPointer, 2, s.ip, s.ip, 0⟩ }

/-- spec/40_engine.md R92, the spec's decision D8. -/
def Obligations.ExtentAboveTheTopFaults : Prop :=
  ∀ (i : Instr) (s : State), i ≠ .halt → Config.amax < s.ip + i.tag.arity →
    exec i s = .next (faulted s .invalidInstructionPointer (s.ip + i.tag.arity) 0)

/-- spec/40_engine.md R93, R95 and R96; the exact sum is the spec's decision D4 and the order D6. -/
def Obligations.FirstBadOperandFaults : Prop :=
  ∀ (i : Instr) (s : State) (k : Nat) (v : Int), i.wellFormed = true → i ≠ .halt → Extent s i.tag.arity → FirstBad s i k v →
    exec i s = .next (faulted s .invalidAddress v k)

/-- spec/60_exceptions.md R183. -/
def Obligations.FaultChangesOnlyTheRecord : Prop :=
  ∀ (s t : State) (r : FaultRecord), s.fault = none → step s = .next t → t.fault = some r →
    t = { s with fault := some r } ∧ r.code = r.kind.code ∧ r.ip = s.ip ∧ stepResult s = some (.err r)

/-- spec/60_exceptions.md R170; the numbers are the spec's decision D14. -/
def Obligations.FaultCodesAreTheSpecs : Prop :=
  [FaultKind.invalidAddress, .invalidInstructionPointer, .invalidOpcode, .invalidMode, .additionalDigits,
      .immediateWriteDestination, .arithmeticOverflow].map FaultKind.code = [1, 2, 3, 4, 5, 6, 7]

/-- spec/40_engine.md R101, last two rows, the spec's decision D18. -/
def Obligations.StoppedEngineNeverMoves : Prop :=
  ∀ (s : State) (k : Nat),
    (∀ r, s.fault = some r → runSteps k s = s ∧ stepResult s = some (.err r) ∧ label s = none) ∧
    (s.fault = none → s.halted = true → runSteps k s = s ∧ stepResult s = some (.ok false) ∧ label s = none)

/-- spec/40_engine.md R101, first three rows, with R99. -/
def Obligations.StepResultFollowsTheLabel : Prop :=
  ∀ s : State, Running s →
    stepResult s =
      match label s with
      | none => none
      | some .tau => some (.ok true)
      | some (.input _) => some (.ok true)
      | some (.output _) => some (.ok true)
      | some .halt => some (.ok false)
      | some (.fault r) => some (.err r)

/-- The labelled transitions of spec/40_engine.md R99 over the whole of R90; the order of the faults is the spec's decision D6, the ports D19. -/
def Obligations.TransitionsAreTheSteps : Prop :=
  ∀ (s t : State) (l : Option Label), Transition s l t ↔ step s = .next t ∧ label s = l

/-- spec/40_engine.md R100 under fuel, the spec's decision D16 (log entry 17). -/
def Obligations.RunReturnsAtHaltOrFault : Prop :=
  ∀ (s : State) (k : Nat),
    (∃ n, n ≤ k ∧ (run k s).1 = runSteps n s) ∧
    ((run k s).2 = some .ok → (run k s).1.halted = true ∧ (run k s).1.fault = none) ∧
    (∀ r, (run k s).2 = some (.err r) → (run k s).1.fault = some r) ∧
    ((run k s).2 ≠ none → ∀ n, run (k + n) s = run k s) ∧
    (1 ≤ k → (runSteps k s).status = .halted → run k s = (runSteps k s, some .ok)) ∧
    (1 ≤ k → ∀ r, (runSteps k s).fault = some r → run k s = (runSteps k s, some (.err r))) ∧
    (Running (runSteps k s) → run k s = (runSteps k s, none))

/-- spec/41_arithmetic.md R113, completion and frame. -/
def Obligations.AddStoresTheExactSum : Prop :=
  ∀ (m1 m2 m3 : Mode) (s : State) (x y : Int) (d : Nat), Extent s 3 → SourceIs s m1 1 x → SourceIs s m2 2 y →
    DestinationIs s m3 3 d → InWord (x + y) →
    ∃ t, exec (.add m1 m2 m3) s = .next t ∧ (t.memRead d).toInt = x + y ∧ OtherCells s t d ∧
      t.ip = s.ip + 4 ∧ t.rb = s.rb ∧ SameStatus s t ∧ SamePorts s t

/-- spec/41_arithmetic.md R114, completion and frame. -/
def Obligations.MultiplyStoresTheExactProduct : Prop :=
  ∀ (m1 m2 m3 : Mode) (s : State) (x y : Int) (d : Nat), Extent s 3 → SourceIs s m1 1 x → SourceIs s m2 2 y →
    DestinationIs s m3 3 d → InWord (x * y) →
    ∃ t, exec (.multiply m1 m2 m3) s = .next t ∧ (t.memRead d).toInt = x * y ∧ OtherCells s t d ∧
      t.ip = s.ip + 4 ∧ t.rb = s.rb ∧ SameStatus s t ∧ SamePorts s t

/-- spec/44_compare.md R146, completion and frame; the stored values are the spec's decision D11. -/
def Obligations.LessThanStoresOneOrZero : Prop :=
  ∀ (m1 m2 m3 : Mode) (s : State) (x y : Int) (d : Nat), Extent s 3 → SourceIs s m1 1 x → SourceIs s m2 2 y →
    DestinationIs s m3 3 d →
    ∃ t, exec (.lessThan m1 m2 m3) s = .next t ∧ (t.memRead d).toInt = (if x < y then 1 else 0) ∧ OtherCells s t d ∧
      t.ip = s.ip + 4 ∧ t.rb = s.rb ∧ SameStatus s t ∧ SamePorts s t

/-- spec/44_compare.md R147, completion and frame; the stored values are the spec's decision D11. -/
def Obligations.EqualsStoresOneOrZero : Prop :=
  ∀ (m1 m2 m3 : Mode) (s : State) (x y : Int) (d : Nat), Extent s 3 → SourceIs s m1 1 x → SourceIs s m2 2 y →
    DestinationIs s m3 3 d →
    ∃ t, exec (.equals m1 m2 m3) s = .next t ∧ (t.memRead d).toInt = (if x = y then 1 else 0) ∧ OtherCells s t d ∧
      t.ip = s.ip + 4 ∧ t.rb = s.rb ∧ SameStatus s t ∧ SamePorts s t

/-- spec/42_io.md R121, completion and frame; the offer is the host's plain data in the state (log entry 3). -/
def Obligations.InputStoresTheOfferedWord : Prop :=
  ∀ (m : Mode) (s : State) (d : Nat) (v : Word) (rest : List Word), Extent s 1 → DestinationIs s m 1 d → s.offered = v :: rest →
    ∃ t, exec (.input m) s = .next t ∧ t.memRead d = v ∧ OtherCells s t d ∧ t.ip = s.ip + 2 ∧ t.rb = s.rb ∧ SameStatus s t ∧
      t.offered = rest ∧ t.sinkReady = s.sinkReady ∧ t.trace = s.trace ++ [.taken v]

/-- spec/42_io.md R125, completion and frame; the host's readiness is plain data in the state (log entry 3). -/
def Obligations.OutputGivesItsOperand : Prop :=
  ∀ (m : Mode) (s : State) (v : Word), Extent s 1 → SourceIs s m 1 v.toInt → s.sinkReady = true →
    ∃ t, exec (.output m) s = .next t ∧ t.trace = s.trace ++ [.given v] ∧ t.ip = s.ip + 2 ∧ AllCells s t ∧ t.rb = s.rb ∧
      SameStatus s t ∧ t.offered = s.offered ∧ t.sinkReady = s.sinkReady

/-- spec/10_state.md R30, the spec's decision D19; the model writes the wait as a step that changes nothing (log entry 4). -/
def Obligations.WaitingOnAPortChangesNothing : Prop :=
  (∀ (m : Mode) (s : State) (d : Nat), Extent s 1 → DestinationIs s m 1 d → s.offered = [] → exec (.input m) s = .next s) ∧
  ∀ (m : Mode) (s : State) (x : Int), Extent s 1 → SourceIs s m 1 x → s.sinkReady = false → exec (.output m) s = .next s

/-- spec/43_jump.md R138 and R137, completion and frame; true as non-zero is the spec's decision D10, the unchecked target D9. -/
def Obligations.JumpIfTrueGoesToItsTarget : Prop :=
  ∀ (m1 m2 : Mode) (s : State) (c v : Int), Extent s 2 → SourceIs s m1 1 c → SourceIs s m2 2 v →
    (c ≠ 0 → 0 ≤ v → ∃ t, exec (.jumpIfTrue m1 m2) s = .next t ∧ (t.ip : Int) = v ∧ AllCells s t ∧ t.rb = s.rb ∧ SameStatus s t ∧
      SamePorts s t) ∧
    (c = 0 → ∃ t, exec (.jumpIfTrue m1 m2) s = .next t ∧ t.ip = s.ip + 3 ∧ AllCells s t ∧ t.rb = s.rb ∧ SameStatus s t ∧
      SamePorts s t)

/-- spec/43_jump.md R139 and R137, completion and frame; the unchecked target of a jump not taken is the spec's decision D9. -/
def Obligations.JumpIfFalseGoesToItsTarget : Prop :=
  ∀ (m1 m2 : Mode) (s : State) (c v : Int), Extent s 2 → SourceIs s m1 1 c → SourceIs s m2 2 v →
    (c = 0 → 0 ≤ v → ∃ t, exec (.jumpIfFalse m1 m2) s = .next t ∧ (t.ip : Int) = v ∧ AllCells s t ∧ t.rb = s.rb ∧ SameStatus s t ∧
      SamePorts s t) ∧
    (c ≠ 0 → ∃ t, exec (.jumpIfFalse m1 m2) s = .next t ∧ t.ip = s.ip + 3 ∧ AllCells s t ∧ t.rb = s.rb ∧ SameStatus s t ∧
      SamePorts s t)

/-- spec/43_jump.md R137, the spec's decision D9. -/
def Obligations.TakenJumpToNegativeTargetFaults : Prop :=
  ∀ (m1 m2 : Mode) (s : State) (c v : Int), Extent s 2 → SourceIs s m1 1 c → SourceIs s m2 2 v → v < 0 →
    (c ≠ 0 → exec (.jumpIfTrue m1 m2) s = .next (faulted s .invalidInstructionPointer v 2)) ∧
    (c = 0 → exec (.jumpIfFalse m1 m2) s = .next (faulted s .invalidInstructionPointer v 2))

/-- spec/45_relbase.md R155, completion and frame. -/
def Obligations.AdjustRelativeBaseAddsItsOperand : Prop :=
  ∀ (m : Mode) (s : State) (x : Int), Extent s 1 → SourceIs s m 1 x → InWord (s.rb.toInt + x) →
    ∃ t, exec (.adjustRelativeBase m) s = .next t ∧ t.rb.toInt = s.rb.toInt + x ∧ t.ip = s.ip + 2 ∧ AllCells s t ∧
      SameStatus s t ∧ SamePorts s t

/-- spec/46_halt.md R160 and R161; ip staying at the Halt word is the spec's decision D12. -/
def Obligations.HaltStopsInPlace : Prop :=
  ∀ s : State, exec .halt s = .next { s with halted := true } ∧
    (Running s → s.ip ≤ Config.amax → s.memRead s.ip = 99 → step s = .next { s with halted := true })

/-- spec/41_arithmetic.md R112, the spec's decision D2. -/
def Obligations.OverflowFaultsWithTheExactResult : Prop :=
  (∀ (m1 m2 m3 : Mode) (s : State) (x y : Int) (d : Nat), Extent s 3 → SourceIs s m1 1 x → SourceIs s m2 2 y →
      DestinationIs s m3 3 d →
      (¬ InWord (x + y) → exec (.add m1 m2 m3) s = .next (faulted s .arithmeticOverflow (x + y) 0)) ∧
      (¬ InWord (x * y) → exec (.multiply m1 m2 m3) s = .next (faulted s .arithmeticOverflow (x * y) 0))) ∧
  ∀ (m : Mode) (s : State) (x : Int), Extent s 1 → SourceIs s m 1 x → ¬ InWord (s.rb.toInt + x) →
    exec (.adjustRelativeBase m) s = .next (faulted s .arithmeticOverflow (s.rb.toInt + x) 0)

/-- spec/30_encoding.md R73 and R74, the spec's decision D17. -/
def Obligations.PseudoInstructionsExpand : Prop :=
  (∀ (s : State) (t : AsmOperand) (a : Nat), Running s → Extent s 2 → Holds s s.ip (assembleJump t) →
      SourceIs s t.mode 2 a → step s = .next { s with ip := a }) ∧
  (∀ s : State, Running s → Extent s 2 → Holds s s.ip assembleNop → step s = .next { s with ip := s.ip + 3 }) ∧
  ∀ (s : State) (src dst : AsmOperand) (x : Int) (d : Nat), Running s → Extent s 3 → Holds s s.ip (assembleMove src dst) →
    SourceIs s src.mode 1 x → DestinationIs s dst.mode 3 d →
    ∃ t, step s = .next t ∧ (t.memRead d).toInt = x ∧ OtherCells s t d ∧ t.ip = s.ip + 4 ∧ t.rb = s.rb ∧ SameStatus s t ∧
      SamePorts s t

/-- spec/10_state.md R23. -/
def Obligations.OnlyAdjustRelativeBaseWritesRb : Prop :=
  ∀ s t : State, step s = .next t → t.rb ≠ s.rb →
    ∃ m x, fetch s = .run (.adjustRelativeBase m) ∧ SourceIs s m 1 x ∧ t.rb.toInt = s.rb.toInt + x

/-- spec/10_state.md R24. -/
def Obligations.OnlyHaltSetsHalted : Prop :=
  State.reset.halted = false ∧
  (∀ (program : List Int) (offered : List Word) (ready : Bool) (s : State),
    State.construct program offered ready = some s → s.halted = false) ∧
  ∀ s t : State, step s = .next t →
    (s.halted = true → t = s ∧ (s.fault = none → stepResult s = some (.ok false))) ∧
    (s.halted = false → t.halted = true → fetch s = .run .halt) ∧
    (fetch s = .run .halt → t.halted = true)

/-- spec/20_memory.md R51 and spec/40_engine.md R98 (inferences the spec marks as its own). -/
def Obligations.OnlyTheDestinationCellChanges : Prop :=
  ∀ (s t : State) (a : Nat), step s = .next t → t.memRead a ≠ s.memRead a → Writes s a

/-- spec/40_engine.md R97. -/
def Obligations.IpMovesByWidthOrTakenJump : Prop :=
  (∀ (s t : State) (i : Instr), fetch s = .run i → step s = .next t → t.fault = none → label s ≠ none →
      (i = .halt ∧ t.ip = s.ip) ∨ (∃ a, TakenJump s i a ∧ t.ip = a) ∨
      (i ≠ .halt ∧ (∀ a, ¬ TakenJump s i a) ∧ t.ip = s.ip + 1 + i.tag.arity ∧ t.ip ≤ Config.amax + 1)) ∧
  ∀ s : State, Running s → s.ip = Config.amax + 1 →
    step s = .next (faulted s .invalidInstructionPointer (Config.amax + 1) 0)

/-- spec/42_io.md R126. -/
def Obligations.TransfersArePartOfInputAndOutputSteps : Prop :=
  ∀ s t : State, step s = .next t →
    (t.trace = s.trace → SamePorts s t) ∧
    (t.trace ≠ s.trace →
      (∃ m d v rest, fetch s = .run (.input m) ∧ DestinationIs s m 1 d ∧ s.offered = v :: rest ∧ label s = some (.input v) ∧
        t = { s with mem := s.mem.write d v, ip := s.ip + 2, offered := rest, trace := s.trace ++ [.taken v] }) ∨
      (∃ (m : Mode) (v : Word), fetch s = .run (.output m) ∧ SourceIs s m 1 v.toInt ∧ s.sinkReady = true ∧
        label s = some (.output v) ∧ t = { s with ip := s.ip + 2, trace := s.trace ++ [.given v] }))

/-- spec/42_io.md R122. -/
def Obligations.InputsAreTakenInOrder : Prop :=
  ∀ (s : State) (k : Nat),
    takenWords (runSteps k s).trace ++ (runSteps k s).offered = takenWords s.trace ++ s.offered ∧
    (s.trace = [] → ∀ v, label (runSteps k s) = some (.input v) →
      s.offered[(takenWords (runSteps k s).trace).length]? = some v)

/-- spec/42_io.md R123. -/
def Obligations.EngineNeverReadsTheTrace : Prop :=
  ∀ (s t : State) (h : List PortEvent), step s = .next t →
    ∃ new, t.trace = s.trace ++ new ∧ step { s with trace := h } = .next { t with trace := h ++ new } ∧
      label { s with trace := h } = label s

/-- spec/42_io.md R120 and R123 and the spec's decision D19: it is why the host's plain data in the state (log entry 3) covers every reacting host. -/
def Obligations.HostStrategyRunIsAnInputListRun : Prop :=
  ∀ (h : HostStrategy) (s : State) (k : Nat), ∃ (ws : List Word) (n : Nat),
      n ≤ k ∧ ((∀ tr, h.sink tr = true) → n = k) ∧
      (runWithHost h k s).mem = (runSteps n { s with offered := ws, sinkReady := true }).mem ∧
      (runWithHost h k s).ip = (runSteps n { s with offered := ws, sinkReady := true }).ip ∧
      (runWithHost h k s).rb = (runSteps n { s with offered := ws, sinkReady := true }).rb ∧
      (runWithHost h k s).halted = (runSteps n { s with offered := ws, sinkReady := true }).halted ∧
      (runWithHost h k s).fault = (runSteps n { s with offered := ws, sinkReady := true }).fault ∧
      (runWithHost h k s).trace = (runSteps n { s with offered := ws, sinkReady := true }).trace

/-- spec/20_memory.md R54 and spec/70_reset_and_hazards.md R206 (inferences the spec marks as its own), for each of the five writers. -/
def Obligations.StoredInstructionIsFetchedNext : Prop :=
  (∀ (m1 m2 m3 : Mode) (s : State) (x y : Int) (i : Instr), Running s → Extent s 3 → SourceIs s m1 1 x → SourceIs s m2 2 y →
      DestinationIs s m3 3 (s.ip + 4) → i.wellFormed = true →
      (x + y = (encode i).toInt → ∃ t, exec (.add m1 m2 m3) s = .next t ∧ step t = exec i t) ∧
      (x * y = (encode i).toInt → ∃ t, exec (.multiply m1 m2 m3) s = .next t ∧ step t = exec i t) ∧
      ((if x < y then 1 else 0) = (encode i).toInt → ∃ t, exec (.lessThan m1 m2 m3) s = .next t ∧ step t = exec i t) ∧
      ((if x = y then 1 else 0) = (encode i).toInt → ∃ t, exec (.equals m1 m2 m3) s = .next t ∧ step t = exec i t)) ∧
  ∀ (m : Mode) (s : State) (rest : List Word) (i : Instr), Running s → Extent s 1 → DestinationIs s m 1 (s.ip + 2) →
    i.wellFormed = true → s.offered = encode i :: rest → ∃ t, exec (.input m) s = .next t ∧ step t = exec i t
end

