-- ==== Sys2Proof/Laws/Word.lean ====
section
/-! SUPPORT. The word range (spec/00_scope.md R5, R6): every word's integer lies in `[WMIN, WMAX]`, and an integer in range is the
value of its word. -/

namespace Sys2Proof.Laws

open Sys2Proof.Machine Sys2Proof.Claims

theorem amax_eq : Config.amax = 18446744073709551615 := rfl

theorem wmin_eq : Config.wmin = -9223372036854775808 := rfl

theorem wmax_eq : Config.wmax = 9223372036854775807 := rfl

/-- Every word is in the word range. -/
theorem inWord_toInt (w : Word) : InWord w.toInt := by
  have h1 := w.le_toInt
  have h2 := w.toInt_lt
  rw [InWord, wmin_eq, wmax_eq]
  norm_num at h1 h2
  omega

theorem fitsWord_iff (v : Int) : fitsWord v = true ↔ InWord v := by simp [fitsWord, InWord]

/-- Narrowing an integer in range loses nothing. -/
theorem toInt_ofInt {v : Int} (h : InWord v) : (BitVec.ofInt 64 v : Word).toInt = v := by
  rw [InWord, wmin_eq, wmax_eq] at h
  rw [BitVec.toInt_ofInt, Int.bmod_eq_of_le] <;> norm_num <;> omega

theorem toInt_toWord {v : Int} (h : InWord v) : (toWord v).toInt = v := toInt_ofInt h

/-- A word is the narrowing of its integer. -/
theorem toWord_toInt (w : Word) : toWord w.toInt = w := BitVec.ofInt_toInt

/-- Words with the same integer are the same. -/
theorem word_ext {v w : Word} (h : v.toInt = w.toInt) : v = w := BitVec.eq_of_toInt_eq h

/-- `checked` succeeds exactly on the word range (R112). -/
theorem checked_eq_ok {v : Int} {w : Word} : checked v = .ok w ↔ InWord v ∧ w = toWord v := by
  unfold checked
  split
  next h => rw [Except.ok.injEq]; exact ⟨fun e => ⟨(fitsWord_iff v).1 h, e.symm⟩, fun e => e.2.symm⟩
  next h => simp [(fitsWord_iff v).not.1 h]

/-- `checked` raises `ArithmeticOverflow` with the exact value exactly outside the word range (R112). -/
theorem checked_eq_error {v : Int} {e : Stop} :
    checked v = .error e ↔ ¬ InWord v ∧ e = .raise ⟨.arithmeticOverflow, v, 0⟩ := by
  unfold checked
  split
  next h => simp [(fitsWord_iff v).1 h]
  next h => rw [Except.error.injEq]; exact ⟨fun he => ⟨(fitsWord_iff v).not.1 h, he.symm⟩, fun he => he.2.symm⟩

@[simp] theorem truthWord_toInt (b : Bool) : (truthWord b).toInt = if b then 1 else 0 := by cases b <;> rfl

theorem truthWord_eq (b : Bool) : truthWord b = BitVec.ofInt 64 (if b then 1 else 0) := by cases b <;> rfl

end Sys2Proof.Laws
end

