-- ==== Sys2Proof/Laws/Decode.lean ====
section
/-! SUPPORT. What the pieces of the decoder answer, once for each (spec/30_encoding.md R61 to R66), and the range of encoded words. -/

namespace Sys2Proof.Laws

/-- The opcode map read backwards (R70). -/
theorem tagOfOpcode_eq_some {op : Int} {t : Tag} : tagOfOpcode op = some t ↔ t.opcode = op := by
  constructor
  · intro h
    simpa using List.find?_some h
  · rintro rfl
    cases t <;> rfl

/-- The mode digits read backwards (R62). -/
theorem modeOfDigit_eq_some {d : Int} {m : Mode} : modeOfDigit d = some m ↔ m.digit = d := by
  constructor
  · intro h
    simpa using List.find?_some h
  · rintro rfl
    cases m <;> rfl

/-- A digit names no mode exactly when it is none of 0, 1 and 2. -/
theorem modeOfDigit_eq_none {d : Int} : modeOfDigit d = none ↔ d ≠ 0 ∧ d ≠ 1 ∧ d ≠ 2 := by
  simp [modeOfDigit, Mode.digit, eq_comm (b := d)]

theorem modeAt_eq_ok {w q : Int} {k : Nat} {m : Mode} : modeAt w q k = .ok m ↔ m.digit = digit q (k - 1) := by
  rw [← modeOfDigit_eq_some, modeAt]
  split <;> simp_all

theorem modeAt_eq_error {w q : Int} {k : Nat} {r : Raise} :
    modeAt w q k = .error r ↔
      (digit q (k - 1) ≠ 0 ∧ digit q (k - 1) ≠ 1 ∧ digit q (k - 1) ≠ 2) ∧ r = ⟨.invalidMode, w, k⟩ := by
  rw [← modeOfDigit_eq_none, modeAt]
  split
  next h => simp [h]
  next h => rw [Except.error.injEq]; exact ⟨fun e => ⟨h, e.symm⟩, fun e => e.2.symm⟩

theorem noExcessDigits_eq_ok {w q : Int} {n : Nat} {u : Unit} : noExcessDigits w q n = .ok u ↔ q.tdiv (10 ^ n) = 0 := by
  unfold noExcessDigits
  split <;> simp_all

theorem noExcessDigits_eq_error {w q : Int} {n : Nat} {r : Raise} :
    noExcessDigits w q n = .error r ↔ q.tdiv (10 ^ n) ≠ 0 ∧ r = ⟨.additionalDigits, w, 0⟩ := by
  unfold noExcessDigits
  split
  next h => simp [h]
  next h => rw [Except.error.injEq]; exact ⟨fun e => ⟨h, e.symm⟩, fun e => e.2.symm⟩

theorem destinationWritable_eq_ok {w : Int} {k : Nat} {m : Mode} {u : Unit} :
    destinationWritable w k m = .ok u ↔ m.writable = true := by
  unfold destinationWritable
  split <;> simp_all

theorem destinationWritable_eq_error {w : Int} {k : Nat} {m : Mode} {r : Raise} :
    destinationWritable w k m = .error r ↔ m.writable = false ∧ r = ⟨.immediateWriteDestination, w, k⟩ := by
  unfold destinationWritable
  split
  next h => simp [h]
  next h => rw [Except.error.injEq]; exact ⟨fun e => ⟨by simpa using h, e.symm⟩, fun e => e.2.symm⟩

/-- Everything a decoded word tells: it is not negative, and its opcode field is the decoded tag's. -/
theorem decodeInt_eq_ok {v : Int} {i : Instr} :
    decodeInt v = .ok i ↔ 0 ≤ v ∧ ∃ t, t.opcode = v.tmod 100 ∧ decodeFields t v (v.tdiv 100) = .ok i := by
  unfold decodeInt
  split
  next h => simp; omega
  next h =>
    simp only [← tagOfOpcode_eq_some, not_lt] at h ⊢
    split <;> simp_all

/-- Encoded words are small, so narrowing them loses nothing (R68). -/
theorem encodeInt_range (i : Instr) : 1 ≤ encodeInt i ∧ encodeInt i ≤ 22299 := by
  have hd : ∀ m : Mode, 0 ≤ m.digit ∧ m.digit ≤ 2 := fun m => by cases m <;> decide
  cases i with
  | add a b c | multiply a b c | lessThan a b c | equals a b c =>
    have := hd a; have := hd b; have := hd c
    simp only [encodeInt, Instr.tag, Tag.opcode, Instr.modes, modeDigits]; omega
  | jumpIfTrue a b | jumpIfFalse a b =>
    have := hd a; have := hd b
    simp only [encodeInt, Instr.tag, Tag.opcode, Instr.modes, modeDigits]; omega
  | input a | output a | adjustRelativeBase a =>
    have := hd a
    simp only [encodeInt, Instr.tag, Tag.opcode, Instr.modes, modeDigits]; omega
  | halt => simp [encodeInt, Instr.tag, Tag.opcode, Instr.modes, modeDigits]

theorem encode_toInt (i : Instr) : (encode i).toInt = encodeInt i := by
  have h := encodeInt_range i
  refine toInt_ofInt ?_
  rw [Claims.InWord, wmin_eq, wmax_eq]
  omega

end Sys2Proof.Laws
end

