-- ==== Sys2Proof/Laws/Memory.lean ====
section
/-! SUPPORT. The laws of memory: a read after a write (spec/20_memory.md R42, R43), the canonical form kept by every operation, and
equal memories equal as data. -/

namespace Sys2Proof.Machine

@[simp] theorem Memory.read_nil (a : Nat) : Memory.read [] a = 0 := rfl

theorem Memory.read_cons (c : Nat × Word) (m : Memory) (a : Nat) :
    Memory.read (c :: m) a = if c.1 = a then c.2 else Memory.read m a := rfl

/-- An erased cell reads 0 and every other cell reads as before. -/
theorem Memory.read_erase (m : Memory) (a b : Nat) : (m.erase a).read b = if b = a then 0 else m.read b := by
  induction m with
  | nil => simp [Memory.erase]
  | cons c m ih =>
    simp only [Memory.erase, List.filter_cons, bne_iff_ne, ne_eq] at ih ⊢
    split <;> simp only [Memory.read_cons, ih] <;> grind

/-- A cell inserted where its address is not listed reads the word, and every other cell reads as before. -/
theorem Memory.read_insert (m : Memory) (a b : Nat) (v : Word) (h : ∀ c ∈ m, c.1 ≠ a) :
    (m.insert a v).read b = if b = a then v else m.read b := by
  induction m with
  | nil => simp [Memory.insert, Memory.read_cons, eq_comm]
  | cons c m ih =>
    have ih := ih fun c hc => h c (List.mem_cons_of_mem _ hc)
    have hc := h c List.mem_cons_self
    simp only [Memory.insert]
    split <;> simp only [Memory.read_cons, ih] <;> grind

theorem Memory.not_mem_erase (m : Memory) (a : Nat) : ∀ c ∈ m.erase a, c.1 ≠ a := by
  simp [Memory.erase]

/-- A read after a write, at every address (R43). -/
@[simp] theorem Memory.read_write (m : Memory) (a b : Nat) (v : Word) :
    (m.write a v).read b = if b = a then v else m.read b := by
  unfold Memory.write
  split
  · simp_all [Memory.read_erase]
  · rw [Memory.read_insert _ _ _ _ (m.not_mem_erase a), Memory.read_erase]; grind

theorem Memory.read_write_same (m : Memory) (a : Nat) (v : Word) : (m.write a v).read a = v := by simp

theorem Memory.read_write_other (m : Memory) {a b : Nat} (v : Word) (h : b ≠ a) : (m.write a v).read b = m.read b := by
  simp [h]

theorem Memory.mem_insert {m : Memory} {a : Nat} {v : Word} {c : Nat × Word} :
    c ∈ m.insert a v ↔ c = (a, v) ∨ c ∈ m := by
  induction m with
  | nil => simp [Memory.insert]
  | cons d m ih => simp only [Memory.insert]; split <;> simp [ih]; tauto

theorem Memory.pairwise_insert {m : Memory} {a : Nat} {v : Word} (hm : m.Pairwise (fun c d => c.1 < d.1))
    (h : ∀ c ∈ m, c.1 ≠ a) : (m.insert a v).Pairwise (fun c d => c.1 < d.1) := by
  induction m with
  | nil => simp [Memory.insert]
  | cons d m ih =>
    have hd := h d List.mem_cons_self
    rw [List.pairwise_cons] at hm
    simp only [Memory.insert]
    split
    next hlt =>
      rw [List.pairwise_cons, List.pairwise_cons]
      refine ⟨fun c hc => ?_, hm⟩
      rcases List.mem_cons.1 hc with rfl | hc
      · exact hlt
      · exact hlt.trans (hm.1 c hc)
    next hge =>
      rw [List.pairwise_cons]
      refine ⟨fun c hc => ?_, ih hm.2 fun c hc => h c (List.mem_cons_of_mem _ hc)⟩
      rcases Memory.mem_insert.1 hc with rfl | hc
      · show d.1 < a
        omega
      · exact hm.1 c hc

/-- Every write keeps the canonical form. -/
theorem Memory.wf_write {m : Memory} (hm : m.wf) {a : Nat} (ha : a ≤ Config.amax) (v : Word) : (m.write a v).wf := by
  have hp : (m.erase a).Pairwise (fun c d => c.1 < d.1) := hm.1.filter _
  have hmem : ∀ c ∈ m.erase a, c.1 ≤ Config.amax ∧ c.2 ≠ 0 := fun c hc => hm.2 c (List.mem_of_mem_filter hc)
  unfold Memory.write
  split
  · exact ⟨hp, hmem⟩
  next hv =>
    refine ⟨Memory.pairwise_insert hp (m.not_mem_erase a), fun c hc => ?_⟩
    rcases Memory.mem_insert.1 hc with rfl | hc
    · exact ⟨ha, hv⟩
    · exact hmem c hc

theorem Memory.wf_nil : Memory.wf [] := by simp [Memory.wf]

/-- A loaded memory's addresses lie from the start address on, and below its end. -/
theorem Memory.mem_load {ws : List Word} {a : Nat} {c : Nat × Word} (h : c ∈ Memory.load a ws) :
    a ≤ c.1 ∧ c.1 < a + ws.length ∧ c.2 ≠ 0 := by
  induction ws generalizing a with
  | nil => simp [Memory.load] at h
  | cons v ws ih =>
    simp only [Memory.load] at h
    simp only [List.length_cons]
    split at h
    · have := ih h
      exact ⟨by omega, by omega, this.2.2⟩
    next hv =>
      rcases List.mem_cons.1 h with rfl | h
      · exact ⟨le_rfl, by dsimp only; omega, hv⟩
      · have := ih h
        exact ⟨by omega, by omega, this.2.2⟩

theorem Memory.pairwise_load (a : Nat) (ws : List Word) : (Memory.load a ws).Pairwise (fun c d => c.1 < d.1) := by
  induction ws generalizing a with
  | nil => simp [Memory.load]
  | cons v ws ih =>
    simp only [Memory.load]
    split
    · exact ih _
    · exact List.pairwise_cons.2 ⟨fun c hc => (Memory.mem_load hc).1, ih _⟩

/-- A memory loaded within the address space is canonical. -/
theorem Memory.wf_load {a : Nat} {ws : List Word} (h : a + ws.length ≤ Config.amax + 1) : (Memory.load a ws).wf :=
  ⟨Memory.pairwise_load a ws, fun c hc => by have := Memory.mem_load hc; exact ⟨by omega, this.2.2⟩⟩

/-- A read below a memory's addresses is 0. -/
theorem Memory.read_eq_zero {m : Memory} {b : Nat} (h : ∀ c ∈ m, c.1 ≠ b) : m.read b = 0 := by
  induction m with
  | nil => rfl
  | cons c m ih => simp [Memory.read_cons, h c, ih fun d hd => h d (List.mem_cons_of_mem _ hd)]

/-- A loaded memory reads the words in order from its start address, and 0 beyond them (R42). -/
theorem Memory.read_load (a k : Nat) (ws : List Word) : (Memory.load a ws).read (a + k) = ws.getD k 0 := by
  induction ws generalizing a k with
  | nil => simp [Memory.load]
  | cons v ws ih =>
    cases k with
    | zero =>
      simp only [Memory.load, Nat.add_zero, List.getD_cons_zero]
      split
      next hv =>
        rw [hv]
        exact Memory.read_eq_zero fun c hc => by have := (Memory.mem_load hc).1; omega
      · simp [Memory.read_cons]
    | succ k =>
      have h := ih (a + 1) k
      rw [show a + 1 + k = a + (k + 1) by omega] at h
      simp only [Memory.load, List.getD_cons_succ, ← h]
      split
      · rfl
      · simp [Memory.read_cons]

/-- A listed cell of a canonical memory reads its word. -/
theorem Memory.read_of_mem {m : Memory} (hm : m.Pairwise (fun c d => c.1 < d.1)) {c : Nat × Word} (hc : c ∈ m) :
    m.read c.1 = c.2 := by
  induction m with
  | nil => simp at hc
  | cons d m ih =>
    rw [List.pairwise_cons] at hm
    rcases List.mem_cons.1 hc with rfl | hc
    · simp [Memory.read_cons]
    · have := hm.1 c hc
      rw [Memory.read_cons, if_neg (by omega), ih hm.2 hc]

end Sys2Proof.Machine
end

