-- ==== Sys2Proof/Laws/State.lean ====
section
/-! SUPPORT. What each update of the state does to each field, so that no later proof unfolds a record update, and how reads of
memory and the two ports go through the updates. -/

namespace Sys2Proof.Machine

@[simp] theorem State.memWrite_mem (s : State) (a : Nat) (v : Word) : (s.memWrite a v).mem = s.mem.write a v := rfl
@[simp] theorem State.memWrite_ip (s : State) (a : Nat) (v : Word) : (s.memWrite a v).ip = s.ip := rfl
@[simp] theorem State.memWrite_rb (s : State) (a : Nat) (v : Word) : (s.memWrite a v).rb = s.rb := rfl
@[simp] theorem State.memWrite_halted (s : State) (a : Nat) (v : Word) : (s.memWrite a v).halted = s.halted := rfl
@[simp] theorem State.memWrite_fault (s : State) (a : Nat) (v : Word) : (s.memWrite a v).fault = s.fault := rfl
@[simp] theorem State.memWrite_offered (s : State) (a : Nat) (v : Word) : (s.memWrite a v).offered = s.offered := rfl
@[simp] theorem State.memWrite_sinkReady (s : State) (a : Nat) (v : Word) : (s.memWrite a v).sinkReady = s.sinkReady := rfl
@[simp] theorem State.memWrite_trace (s : State) (a : Nat) (v : Word) : (s.memWrite a v).trace = s.trace := rfl

@[simp] theorem State.setIp_mem (s : State) (n : Nat) : (s.setIp n).mem = s.mem := rfl
@[simp] theorem State.setIp_ip (s : State) (n : Nat) : (s.setIp n).ip = n := rfl
@[simp] theorem State.setIp_rb (s : State) (n : Nat) : (s.setIp n).rb = s.rb := rfl
@[simp] theorem State.setIp_halted (s : State) (n : Nat) : (s.setIp n).halted = s.halted := rfl
@[simp] theorem State.setIp_fault (s : State) (n : Nat) : (s.setIp n).fault = s.fault := rfl
@[simp] theorem State.setIp_offered (s : State) (n : Nat) : (s.setIp n).offered = s.offered := rfl
@[simp] theorem State.setIp_sinkReady (s : State) (n : Nat) : (s.setIp n).sinkReady = s.sinkReady := rfl
@[simp] theorem State.setIp_trace (s : State) (n : Nat) : (s.setIp n).trace = s.trace := rfl

@[simp] theorem State.setRb_mem (s : State) (v : Word) : (s.setRb v).mem = s.mem := rfl
@[simp] theorem State.setRb_ip (s : State) (v : Word) : (s.setRb v).ip = s.ip := rfl
@[simp] theorem State.setRb_rb (s : State) (v : Word) : (s.setRb v).rb = v := rfl
@[simp] theorem State.setRb_halted (s : State) (v : Word) : (s.setRb v).halted = s.halted := rfl
@[simp] theorem State.setRb_fault (s : State) (v : Word) : (s.setRb v).fault = s.fault := rfl
@[simp] theorem State.setRb_offered (s : State) (v : Word) : (s.setRb v).offered = s.offered := rfl
@[simp] theorem State.setRb_sinkReady (s : State) (v : Word) : (s.setRb v).sinkReady = s.sinkReady := rfl
@[simp] theorem State.setRb_trace (s : State) (v : Word) : (s.setRb v).trace = s.trace := rfl

@[simp] theorem State.advance_mem (s : State) (n : Nat) : (s.advance n).mem = s.mem := rfl
@[simp] theorem State.advance_ip (s : State) (n : Nat) : (s.advance n).ip = s.ip + 1 + n := rfl
@[simp] theorem State.advance_rb (s : State) (n : Nat) : (s.advance n).rb = s.rb := rfl
@[simp] theorem State.advance_halted (s : State) (n : Nat) : (s.advance n).halted = s.halted := rfl
@[simp] theorem State.advance_fault (s : State) (n : Nat) : (s.advance n).fault = s.fault := rfl
@[simp] theorem State.advance_offered (s : State) (n : Nat) : (s.advance n).offered = s.offered := rfl
@[simp] theorem State.advance_sinkReady (s : State) (n : Nat) : (s.advance n).sinkReady = s.sinkReady := rfl
@[simp] theorem State.advance_trace (s : State) (n : Nat) : (s.advance n).trace = s.trace := rfl

@[simp] theorem State.setHalted_mem (s : State) : (s.setHalted).mem = s.mem := rfl
@[simp] theorem State.setHalted_ip (s : State) : (s.setHalted).ip = s.ip := rfl
@[simp] theorem State.setHalted_rb (s : State) : (s.setHalted).rb = s.rb := rfl
@[simp] theorem State.setHalted_halted (s : State) : (s.setHalted).halted = true := rfl
@[simp] theorem State.setHalted_fault (s : State) : (s.setHalted).fault = s.fault := rfl
@[simp] theorem State.setHalted_offered (s : State) : (s.setHalted).offered = s.offered := rfl
@[simp] theorem State.setHalted_sinkReady (s : State) : (s.setHalted).sinkReady = s.sinkReady := rfl
@[simp] theorem State.setHalted_trace (s : State) : (s.setHalted).trace = s.trace := rfl

@[simp] theorem State.takeFault_mem (s : State) (r : Raise) : (s.takeFault r).mem = s.mem := rfl
@[simp] theorem State.takeFault_ip (s : State) (r : Raise) : (s.takeFault r).ip = s.ip := rfl
@[simp] theorem State.takeFault_rb (s : State) (r : Raise) : (s.takeFault r).rb = s.rb := rfl
@[simp] theorem State.takeFault_halted (s : State) (r : Raise) : (s.takeFault r).halted = s.halted := rfl
@[simp] theorem State.takeFault_fault (s : State) (r : Raise) : (s.takeFault r).fault = some (s.recordOf r) := rfl
@[simp] theorem State.takeFault_offered (s : State) (r : Raise) : (s.takeFault r).offered = s.offered := rfl
@[simp] theorem State.takeFault_sinkReady (s : State) (r : Raise) : (s.takeFault r).sinkReady = s.sinkReady := rfl
@[simp] theorem State.takeFault_trace (s : State) (r : Raise) : (s.takeFault r).trace = s.trace := rfl

@[simp] theorem State.answeredBy_mem (s : State) (h : HostStrategy) : (s.answeredBy h).mem = s.mem := rfl
@[simp] theorem State.answeredBy_ip (s : State) (h : HostStrategy) : (s.answeredBy h).ip = s.ip := rfl
@[simp] theorem State.answeredBy_rb (s : State) (h : HostStrategy) : (s.answeredBy h).rb = s.rb := rfl
@[simp] theorem State.answeredBy_halted (s : State) (h : HostStrategy) : (s.answeredBy h).halted = s.halted := rfl
@[simp] theorem State.answeredBy_fault (s : State) (h : HostStrategy) : (s.answeredBy h).fault = s.fault := rfl
@[simp] theorem State.answeredBy_offered (s : State) (h : HostStrategy) : (s.answeredBy h).offered = (h.source s.trace).toList := rfl
@[simp] theorem State.answeredBy_sinkReady (s : State) (h : HostStrategy) : (s.answeredBy h).sinkReady = h.sink s.trace := rfl
@[simp] theorem State.answeredBy_trace (s : State) (h : HostStrategy) : (s.answeredBy h).trace = s.trace := rfl

@[simp] theorem State.reset_mem : State.reset.mem = [] := rfl
@[simp] theorem State.reset_ip : State.reset.ip = 0 := rfl
@[simp] theorem State.reset_rb : State.reset.rb = 0 := rfl
@[simp] theorem State.reset_halted : State.reset.halted = false := rfl
@[simp] theorem State.reset_fault : State.reset.fault = none := rfl
@[simp] theorem State.reset_offered : State.reset.offered = [] := rfl
@[simp] theorem State.reset_sinkReady : State.reset.sinkReady = true := rfl
@[simp] theorem State.reset_trace : State.reset.trace = [] := rfl

@[simp] theorem State.memRead_eq (s : State) (a : Nat) : s.memRead a = s.mem.read a := rfl

theorem State.raw_eq (s : State) (k : Nat) : s.raw k = s.mem.read (s.ip + k) := rfl

@[simp] theorem State.recordOf_kind (s : State) (r : Raise) : (s.recordOf r).kind = r.kind := rfl
@[simp] theorem State.recordOf_code (s : State) (r : Raise) : (s.recordOf r).code = r.kind.code := rfl
@[simp] theorem State.recordOf_ip (s : State) (r : Raise) : (s.recordOf r).ip = s.ip := rfl
@[simp] theorem State.recordOf_value (s : State) (r : Raise) : (s.recordOf r).value = r.value := rfl
@[simp] theorem State.recordOf_param (s : State) (r : Raise) : (s.recordOf r).param = r.param := rfl

/-- Everything `InRead` can do when it takes a word. -/
theorem inRead_eq_ok {s t : State} {v : Word} :
    s.inRead = .ok (v, t) ↔ ∃ rest, s.offered = v :: rest ∧ t = { s with offered := rest, trace := s.trace ++ [.taken v] } := by
  unfold State.inRead
  split
  next h => simp [h]
  next u rest h =>
    rw [h, Except.ok.injEq, Prod.mk.injEq]
    constructor
    · rintro ⟨rfl, rfl⟩; exact ⟨rest, rfl, rfl⟩
    · rintro ⟨r, h, rfl⟩; cases h; exact ⟨rfl, rfl⟩

/-- `InRead` ends otherwise only in a wait, when nothing is offered. -/
theorem inRead_eq_error {s : State} {e : Stop} : s.inRead = .error e ↔ s.offered = [] ∧ e = .wait := by
  unfold State.inRead
  split
  next h => rw [Except.error.injEq]; exact ⟨fun he => ⟨h, he.symm⟩, fun he => he.2.symm⟩
  next h => simp [h]

/-- Everything `OutWrite` can do when the host takes the word. -/
theorem outWrite_eq_ok {s t : State} {v : Word} :
    s.outWrite v = .ok t ↔ s.sinkReady = true ∧ t = { s with trace := s.trace ++ [.given v] } := by
  unfold State.outWrite
  split
  next h => rw [Except.ok.injEq]; exact ⟨fun ht => ⟨h, ht.symm⟩, fun ht => ht.2.symm⟩
  next h => simp [h]

/-- `OutWrite` ends otherwise only in a wait, when the host takes no word. -/
theorem outWrite_eq_error {s : State} {v : Word} {e : Stop} :
    s.outWrite v = .error e ↔ s.sinkReady = false ∧ e = .wait := by
  unfold State.outWrite
  split
  next h => simp [h]
  next h => rw [Except.error.injEq]; exact ⟨fun he => ⟨by simpa using h, he.symm⟩, fun he => he.2.symm⟩

/-- Everything the end of an instruction's stages can be: the retired state, the fault alone, or the state as it was. -/
theorem finish_eq_next {s t : State} {stages : Except Stop State} :
    finish s stages = .next t ↔
      stages = .ok t ∨ (∃ r, stages = .error (.raise r) ∧ t = s.takeFault r) ∨ (stages = .error .wait ∧ t = s) := by
  unfold finish
  split <;> simp [eq_comm (b := t)]

@[simp] theorem finish_ok (s t : State) : finish s (.ok t) = .next t := rfl

@[simp] theorem finish_raise (s : State) (r : Raise) : finish s (.error (.raise r)) = .next (s.takeFault r) := rfl

@[simp] theorem finish_wait (s : State) : finish s (.error .wait) = .next s := rfl

/-- The end of an instruction's stages is a next state, never a stop. -/
theorem finish_is_next (s : State) (stages : Except Stop State) : ∃ t, finish s stages = .next t := by
  match stages with
  | .ok t => exact ⟨t, rfl⟩
  | .error (.raise r) => exact ⟨s.takeFault r, rfl⟩
  | .error .wait => exact ⟨s, rfl⟩

end Sys2Proof.Machine
end

