-- ==== Sys2Proof/Laws/Operands.lean ====
section
/-! SUPPORT. What operand resolution answers, once for each function, in the relations of Safety.lean: an operand resolves
exactly when it names a cell, to that cell's word or address, and otherwise raises the fault of spec/40_engine.md R92 to R95. -/

namespace Sys2Proof.Laws

open Sys2Proof.Machine Sys2Proof.Claims

theorem toAddr_eq_ok {v : Int} {kind : FaultKind} {k a : Nat} :
    toAddr v kind k = .ok a ↔ v = a ∧ a ≤ Config.amax := by
  unfold toAddr
  split
  next h => simp; omega
  next h => rw [Except.ok.injEq]; omega

theorem toAddr_eq_error {v : Int} {kind : FaultKind} {k : Nat} {e : Stop} :
    toAddr v kind k = .error e ↔ (v < 0 ∨ (Config.amax : Int) < v) ∧ e = .raise ⟨kind, v, k⟩ := by
  unfold toAddr
  split
  next h => rw [Except.error.injEq]; exact ⟨fun he => ⟨h, he.symm⟩, fun he => he.2.symm⟩
  next h => simp [h]

theorem extentCheck_eq_ok {s : State} {n : Nat} {u : Unit} : extentCheck s n = .ok u ↔ Extent s n := by
  unfold extentCheck Extent
  split
  next h => simp; omega
  next h => simp; omega

theorem extentCheck_eq_error {s : State} {n : Nat} {e : Stop} :
    extentCheck s n = .error e ↔ Config.amax < s.ip + n ∧ e = .raise ⟨.invalidInstructionPointer, (s.ip : Int) + n, 0⟩ := by
  unfold extentCheck
  split
  next h => rw [Except.error.injEq, Nat.cast_add]; exact ⟨fun he => ⟨h, he.symm⟩, fun he => he.2.symm⟩
  next h => simp [h]

/-- A source resolves exactly to the word whose integer `SourceIs` names (R94). -/
theorem resolveSrc_eq_ok {s : State} {k : Nat} {m : Mode} {x : Word} :
    resolveSrc s k m = .ok x ↔ SourceIs s m k x.toInt := by
  cases m
  · simp only [resolveSrc, positionAddress, bind_eq_ok, toAddr_eq_ok, pure_eq_ok, Except.ok.injEq, SourceIs, OperandAddress]
    exact ⟨fun ⟨a, ⟨h, ha⟩, e⟩ => ⟨a, h.symm, ha, by rw [e]⟩, fun ⟨a, h, ha, e⟩ => ⟨a, ⟨h.symm, ha⟩, (word_ext e).symm⟩⟩
  · simp only [resolveSrc, Except.ok.injEq, SourceIs]
    exact ⟨fun e => by rw [← e]; rfl, fun e => (word_ext e).symm⟩
  · simp only [resolveSrc, relativeAddress, bind_eq_ok, toAddr_eq_ok, pure_eq_ok, Except.ok.injEq, SourceIs, OperandAddress]
    exact ⟨fun ⟨a, ⟨h, ha⟩, e⟩ => ⟨a, h.symm, ha, by rw [e]⟩, fun ⟨a, h, ha, e⟩ => ⟨a, ⟨h.symm, ha⟩, (word_ext e).symm⟩⟩

/-- A source fails to resolve exactly when it names no cell, with `InvalidAddress` at its effective address (R93, R94). -/
theorem resolveSrc_eq_error {s : State} {k : Nat} {m : Mode} {e : Stop} :
    resolveSrc s k m = .error e ↔ ∃ v, BadOperand s m k v ∧ e = .raise ⟨.invalidAddress, v, k⟩ := by
  cases m
  · simp [resolveSrc, positionAddress, bind_eq_error, toAddr_eq_error, BadOperand, OperandAddress, State.raw, and_assoc]
  · simp [resolveSrc, BadOperand, OperandAddress]
  · simp [resolveSrc, relativeAddress, bind_eq_error, toAddr_eq_error, BadOperand, OperandAddress, State.raw, and_assoc]

/-- A destination resolves exactly to the address `DestinationIs` names (R95). -/
theorem resolveDst_eq_ok {s : State} {k : Nat} {m : Mode} {d : Nat} :
    resolveDst s k m = .ok d ↔ DestinationIs s m k d := by
  cases m
  · simp only [resolveDst, positionAddress, toAddr_eq_ok, DestinationIs, OperandAddress, State.raw]
    exact and_congr_left fun _ => eq_comm
  · simp [resolveDst, DestinationIs, OperandAddress]
  · simp only [resolveDst, relativeAddress, toAddr_eq_ok, DestinationIs, OperandAddress, State.raw]
    exact and_congr_left fun _ => eq_comm

/-- A writable destination fails to resolve exactly when it names no cell (R95). -/
theorem resolveDst_eq_error {s : State} {k : Nat} {m : Mode} (hm : m.writable = true) {e : Stop} :
    resolveDst s k m = .error e ↔ ∃ v, BadOperand s m k v ∧ e = .raise ⟨.invalidAddress, v, k⟩ := by
  cases m
  · simp [resolveDst, positionAddress, toAddr_eq_error, BadOperand, OperandAddress, State.raw, and_assoc]
  · simp [Mode.writable] at hm
  · simp [resolveDst, relativeAddress, toAddr_eq_error, BadOperand, OperandAddress, State.raw, and_assoc]

/-- An Immediate destination, which decoding never answers, raises the decoder's fault (log entry 12). -/
theorem resolveDst_immediate (s : State) (k : Nat) :
    resolveDst s k .immediate = .error (.raise ⟨.immediateWriteDestination, (s.memRead s.ip).toInt, k⟩) := rfl

/-- A resolved source names no bad address. -/
theorem not_badOperand_of_sourceIs {s : State} {m : Mode} {k : Nat} {x v : Int} (h : SourceIs s m k x) :
    ¬ BadOperand s m k v := by
  cases m <;> simp only [SourceIs, BadOperand, OperandAddress] at *
  · rintro ⟨rfl, h2⟩; obtain ⟨a, h1, ha, -⟩ := h; omega
  · tauto
  · rintro ⟨rfl, h2⟩; obtain ⟨a, h1, ha, -⟩ := h; omega

/-- A resolved destination names no bad address. -/
theorem not_badOperand_of_destinationIs {s : State} {m : Mode} {k d : Nat} {v : Int} (h : DestinationIs s m k d) :
    ¬ BadOperand s m k v := by
  obtain ⟨h1, h2⟩ := h
  rintro ⟨h3, h4⟩
  cases m
  · have : v = d := h3.trans h1.symm
    omega
  · exact h1
  · have : v = d := h3.trans h1.symm
    omega

/-- The value of a source is a word. -/
theorem sourceIs_word {s : State} {m : Mode} {k : Nat} {x : Int} (h : SourceIs s m k x) :
    ∃ w : Word, x = w.toInt := by
  cases m
  · obtain ⟨a, -, -, e⟩ := h; exact ⟨_, e⟩
  · exact ⟨_, h⟩
  · obtain ⟨a, -, -, e⟩ := h; exact ⟨_, e⟩

/-- The value of a source is unique. -/
theorem sourceIs_unique {s : State} {m : Mode} {k : Nat} {x y : Int} (h : SourceIs s m k x) (h' : SourceIs s m k y) :
    x = y := by
  obtain ⟨v, rfl⟩ := sourceIs_word h
  obtain ⟨w, rfl⟩ := sourceIs_word h'
  have e := (resolveSrc_eq_ok.2 h).symm.trans (resolveSrc_eq_ok.2 h')
  rw [Except.ok.inj e]

theorem resolveWriter_eq_ok {s : State} {m1 m2 m3 : Mode} {x y : Word} {d : Nat} :
    resolveWriter s m1 m2 m3 = .ok (x, y, d) ↔
      Extent s 3 ∧ SourceIs s m1 1 x.toInt ∧ SourceIs s m2 2 y.toInt ∧ DestinationIs s m3 3 d := by
  simp only [resolveWriter, bind_eq_ok, extentCheck_eq_ok, resolveSrc_eq_ok, resolveDst_eq_ok, pure_eq_ok, Except.ok.injEq,
    Prod.mk.injEq]
  constructor
  · rintro ⟨-, h0, a, h1, b, h2, c, h3, rfl, rfl, rfl⟩; exact ⟨h0, h1, h2, h3⟩
  · rintro ⟨h0, h1, h2, h3⟩; exact ⟨(), h0, x, h1, y, h2, d, h3, rfl, rfl, rfl⟩

theorem resolveTwo_eq_ok {s : State} {m1 m2 : Mode} {x y : Word} :
    resolveTwo s m1 m2 = .ok (x, y) ↔ Extent s 2 ∧ SourceIs s m1 1 x.toInt ∧ SourceIs s m2 2 y.toInt := by
  simp only [resolveTwo, bind_eq_ok, extentCheck_eq_ok, resolveSrc_eq_ok, pure_eq_ok, Except.ok.injEq, Prod.mk.injEq]
  constructor
  · rintro ⟨-, h0, a, h1, b, h2, rfl, rfl⟩; exact ⟨h0, h1, h2⟩
  · rintro ⟨h0, h1, h2⟩; exact ⟨(), h0, x, h1, y, h2, rfl, rfl⟩

theorem resolveOne_eq_ok {s : State} {m1 : Mode} {x : Word} :
    resolveOne s m1 = .ok x ↔ Extent s 1 ∧ SourceIs s m1 1 x.toInt := by
  simp only [resolveOne, bind_eq_ok, extentCheck_eq_ok, resolveSrc_eq_ok]
  exact ⟨fun ⟨_, h⟩ => h, fun h => ⟨(), h⟩⟩

theorem resolveOneDst_eq_ok {s : State} {m1 : Mode} {d : Nat} :
    resolveOneDst s m1 = .ok d ↔ Extent s 1 ∧ DestinationIs s m1 1 d := by
  simp only [resolveOneDst, bind_eq_ok, extentCheck_eq_ok, resolveDst_eq_ok]
  exact ⟨fun ⟨_, h⟩ => h, fun h => ⟨(), h⟩⟩

/-- The faults of stage 3 for a three-parameter writer, in the order of spec/60_exceptions.md R174. -/
theorem resolveWriter_eq_error {s : State} {m1 m2 m3 : Mode} (hm : m3.writable = true) {e : Stop} :
    resolveWriter s m1 m2 m3 = .error e ↔
      (Config.amax < s.ip + 3 ∧ e = .raise ⟨.invalidInstructionPointer, (s.ip : Int) + 3, 0⟩) ∨
      Extent s 3 ∧ ∃ v,
        (BadOperand s m1 1 v ∧ e = .raise ⟨.invalidAddress, v, 1⟩) ∨
        (∃ x : Word, SourceIs s m1 1 x.toInt ∧ BadOperand s m2 2 v ∧ e = .raise ⟨.invalidAddress, v, 2⟩) ∨
        (∃ x y : Word, SourceIs s m1 1 x.toInt ∧ SourceIs s m2 2 y.toInt ∧ BadOperand s m3 3 v ∧
          e = .raise ⟨.invalidAddress, v, 3⟩) := by
  simp only [resolveWriter, bind_eq_error, extentCheck_eq_ok, extentCheck_eq_error, resolveSrc_eq_ok, resolveSrc_eq_error,
    resolveDst_eq_error hm, resolveDst_eq_ok, pure_eq_ok, reduceCtorEq, and_false, exists_false, or_false, Nat.cast_ofNat]
  constructor
  · rintro (h | ⟨-, h0, ⟨v, h⟩ | ⟨x, h1, ⟨v, h⟩ | ⟨y, h2, v, h⟩⟩⟩)
    · exact .inl h
    · exact .inr ⟨h0, v, .inl h⟩
    · exact .inr ⟨h0, v, .inr (.inl ⟨x, h1, h⟩)⟩
    · exact .inr ⟨h0, v, .inr (.inr ⟨x, y, h1, h2, h⟩)⟩
  · rintro (h | ⟨h0, v, h | ⟨x, h1, h⟩ | ⟨x, y, h1, h2, h⟩⟩)
    · exact .inl h
    · exact .inr ⟨(), h0, .inl ⟨v, h⟩⟩
    · exact .inr ⟨(), h0, .inr ⟨x, h1, .inl ⟨v, h⟩⟩⟩
    · exact .inr ⟨(), h0, .inr ⟨x, h1, .inr ⟨y, h2, v, h⟩⟩⟩

/-- The faults of stage 3 for two sources. -/
theorem resolveTwo_eq_error {s : State} {m1 m2 : Mode} {e : Stop} :
    resolveTwo s m1 m2 = .error e ↔
      (Config.amax < s.ip + 2 ∧ e = .raise ⟨.invalidInstructionPointer, (s.ip : Int) + 2, 0⟩) ∨
      Extent s 2 ∧ ∃ v,
        (BadOperand s m1 1 v ∧ e = .raise ⟨.invalidAddress, v, 1⟩) ∨
        (∃ x : Word, SourceIs s m1 1 x.toInt ∧ BadOperand s m2 2 v ∧ e = .raise ⟨.invalidAddress, v, 2⟩) := by
  simp only [resolveTwo, bind_eq_error, extentCheck_eq_ok, extentCheck_eq_error, resolveSrc_eq_ok, resolveSrc_eq_error,
    pure_eq_ok, reduceCtorEq, and_false, exists_false, or_false, Nat.cast_ofNat]
  constructor
  · rintro (h | ⟨-, h0, ⟨v, h⟩ | ⟨x, h1, v, h⟩⟩)
    · exact .inl h
    · exact .inr ⟨h0, v, .inl h⟩
    · exact .inr ⟨h0, v, .inr ⟨x, h1, h⟩⟩
  · rintro (h | ⟨h0, v, h | ⟨x, h1, h⟩⟩)
    · exact .inl h
    · exact .inr ⟨(), h0, .inl ⟨v, h⟩⟩
    · exact .inr ⟨(), h0, .inr ⟨x, h1, v, h⟩⟩

/-- The faults of stage 3 for one source. -/
theorem resolveOne_eq_error {s : State} {m1 : Mode} {e : Stop} :
    resolveOne s m1 = .error e ↔
      (Config.amax < s.ip + 1 ∧ e = .raise ⟨.invalidInstructionPointer, (s.ip : Int) + 1, 0⟩) ∨
      Extent s 1 ∧ ∃ v, BadOperand s m1 1 v ∧ e = .raise ⟨.invalidAddress, v, 1⟩ := by
  simp only [resolveOne, bind_eq_error, extentCheck_eq_ok, extentCheck_eq_error, resolveSrc_eq_error, Nat.cast_one]
  exact or_congr_right ⟨fun ⟨_, h⟩ => h, fun h => ⟨(), h⟩⟩

/-- The faults of stage 3 for one destination. -/
theorem resolveOneDst_eq_error {s : State} {m1 : Mode} (hm : m1.writable = true) {e : Stop} :
    resolveOneDst s m1 = .error e ↔
      (Config.amax < s.ip + 1 ∧ e = .raise ⟨.invalidInstructionPointer, (s.ip : Int) + 1, 0⟩) ∨
      Extent s 1 ∧ ∃ v, BadOperand s m1 1 v ∧ e = .raise ⟨.invalidAddress, v, 1⟩ := by
  simp only [resolveOneDst, bind_eq_error, extentCheck_eq_ok, extentCheck_eq_error, resolveDst_eq_error hm, Nat.cast_one]
  exact or_congr_right ⟨fun ⟨_, h⟩ => h, fun h => ⟨(), h⟩⟩

end Sys2Proof.Laws
end

