-- ==== Sys2Proof/Laws/PerInstr.lean ====
section
/-! SUPPORT. Statements about every instruction as syntax, one lemma per constructor. The family OpcodeField: the low two decimal
digits of an instruction's word are its opcode, and it has one mode for each parameter of its arity (spec/30_encoding.md R61,
R64). -/

namespace Sys2Proof.Laws.OpcodeField

abbrev Statement (i : Instr) : Prop :=
  (encodeInt i).tmod 100 = i.tag.opcode ∧ i.modes.length = i.tag.arity

theorem add (a b d : Mode) : Statement (.add a b d) := by cases a <;> cases b <;> cases d <;> decide
theorem multiply (a b d : Mode) : Statement (.multiply a b d) := by cases a <;> cases b <;> cases d <;> decide
theorem input (d : Mode) : Statement (.input d) := by cases d <;> decide
theorem output (a : Mode) : Statement (.output a) := by cases a <;> decide
theorem jumpIfTrue (a b : Mode) : Statement (.jumpIfTrue a b) := by cases a <;> cases b <;> decide
theorem jumpIfFalse (a b : Mode) : Statement (.jumpIfFalse a b) := by cases a <;> cases b <;> decide
theorem lessThan (a b d : Mode) : Statement (.lessThan a b d) := by cases a <;> cases b <;> cases d <;> decide
theorem equals (a b d : Mode) : Statement (.equals a b d) := by cases a <;> cases b <;> cases d <;> decide
theorem adjustRelativeBase (a : Mode) : Statement (.adjustRelativeBase a) := by cases a <;> decide
theorem halt : Statement .halt := by decide

end Sys2Proof.Laws.OpcodeField
end

