-- ==== Sys2Proof/Laws/Step.lean ====
section
/-! SUPPORT. Everything an instruction and a step can do: an inversion lemma for each operand shape, the fact that every meaning
and every step answers a next state, and the cases of a step. -/

namespace Sys2Proof.Laws

open Sys2Proof.Machine Sys2Proof.Claims

/-- Everything a three-parameter writing instruction can do. -/
theorem execBinary_eq_next {compute : Int → Int → Except Stop Word} {m1 m2 m3 : Mode} {s t : State} :
    execBinary compute m1 m2 m3 s = .next t ↔
      (∃ x y d r, resolveWriter s m1 m2 m3 = .ok (x, y, d) ∧ compute x.toInt y.toInt = .ok r ∧
        t = (s.memWrite d r).advance 3) ∨
      (∃ r, (resolveWriter s m1 m2 m3 = .error (.raise r) ∨
        ∃ x y d, resolveWriter s m1 m2 m3 = .ok (x, y, d) ∧ compute x.toInt y.toInt = .error (.raise r)) ∧
        t = s.takeFault r) ∨
      ((resolveWriter s m1 m2 m3 = .error .wait ∨
        ∃ x y d, resolveWriter s m1 m2 m3 = .ok (x, y, d) ∧ compute x.toInt y.toInt = .error .wait) ∧ t = s) := by
  simp only [execBinary, finish_eq_next, bind_eq_ok, bind_eq_error, pure_eq_ok, Except.ok.injEq, Prod.exists, reduceCtorEq,
    and_false, exists_false, or_false]
  simp only [exists_and_left, eq_comm (b := t)]

/-- Everything a conditional jump can do. -/
theorem execJump_eq_next {taken : Int → Bool} {m1 m2 : Mode} {s t : State} :
    execJump taken m1 m2 s = .next t ↔
      (∃ c v, resolveTwo s m1 m2 = .ok (c, v) ∧
        if taken c.toInt then ∃ a, toAddr v.toInt .invalidInstructionPointer 2 = .ok a ∧ t = s.setIp a
        else t = s.advance 2) ∨
      (∃ r, (resolveTwo s m1 m2 = .error (.raise r) ∨ ∃ c v, resolveTwo s m1 m2 = .ok (c, v) ∧ taken c.toInt = true ∧
        toAddr v.toInt .invalidInstructionPointer 2 = .error (.raise r)) ∧ t = s.takeFault r) ∨
      (resolveTwo s m1 m2 = .error .wait ∧ t = s) := by
  unfold execJump
  match resolveTwo s m1 m2 with
  | .error (.raise r) => simp [eq_comm (b := t)]
  | .error .wait => simp [eq_comm (b := t)]
  | .ok (c, v) =>
    match h : toAddr v.toInt .invalidInstructionPointer 2 with
    | .ok a => by_cases hc : taken c.toInt <;> simp [hc, h, eq_comm (b := t)]
    | .error (.raise r) => by_cases hc : taken c.toInt <;> simp [hc, h, eq_comm (b := t)]
    | .error .wait => simp [toAddr_eq_error] at h

/-- Everything Input can do. -/
theorem execInput_eq_next {m1 : Mode} {s t : State} :
    execInput m1 s = .next t ↔
      (∃ d v rest, resolveOneDst s m1 = .ok d ∧ s.offered = v :: rest ∧
        t = { s with mem := s.mem.write d v, ip := s.ip + 2, offered := rest, trace := s.trace ++ [.taken v] }) ∨
      (∃ r, resolveOneDst s m1 = .error (.raise r) ∧ t = s.takeFault r) ∨
      ((resolveOneDst s m1 = .error .wait ∨ ∃ d, resolveOneDst s m1 = .ok d ∧ s.offered = []) ∧ t = s) := by
  unfold execInput
  match resolveOneDst s m1 with
  | .error (.raise r) => simp [eq_comm (b := t)]
  | .error .wait => simp [eq_comm (b := t)]
  | .ok d =>
    match h : s.offered with
    | [] => simp [inRead_eq_error.2 ⟨h, rfl⟩, eq_comm (b := t)]
    | v :: rest =>
      simp [inRead_eq_ok.2 ⟨rest, h, rfl⟩, State.memWrite, State.advance, State.setIp, eq_comm (b := t)]

/-- Everything Output can do. -/
theorem execOutput_eq_next {m1 : Mode} {s t : State} :
    execOutput m1 s = .next t ↔
      (∃ v, resolveOne s m1 = .ok v ∧ s.sinkReady = true ∧ t = { s with ip := s.ip + 2, trace := s.trace ++ [.given v] }) ∨
      (∃ r, resolveOne s m1 = .error (.raise r) ∧ t = s.takeFault r) ∨
      ((resolveOne s m1 = .error .wait ∨ ∃ v, resolveOne s m1 = .ok v ∧ s.sinkReady = false) ∧ t = s) := by
  unfold execOutput
  match resolveOne s m1 with
  | .error (.raise r) => simp [eq_comm (b := t)]
  | .error .wait => simp [eq_comm (b := t)]
  | .ok v =>
    match h : s.sinkReady with
    | false => simp [outWrite_eq_error.2 ⟨h, rfl⟩, eq_comm (b := t)]
    | true => simp [outWrite_eq_ok.2 ⟨h, rfl⟩, State.advance, State.setIp, h, eq_comm (b := t)]

/-- Everything AdjustRelativeBase can do. -/
theorem execAdjustRelativeBase_eq_next {m1 : Mode} {s t : State} :
    execAdjustRelativeBase m1 s = .next t ↔
      (∃ x r, resolveOne s m1 = .ok x ∧ checked (s.rb.toInt + x.toInt) = .ok r ∧ t = (s.setRb r).advance 1) ∨
      (∃ r, (resolveOne s m1 = .error (.raise r) ∨
        ∃ x, resolveOne s m1 = .ok x ∧ checked (s.rb.toInt + x.toInt) = .error (.raise r)) ∧ t = s.takeFault r) ∨
      (resolveOne s m1 = .error .wait ∧ t = s) := by
  simp only [execAdjustRelativeBase, finish_eq_next, bind_eq_ok, bind_eq_error, pure_eq_ok, Except.ok.injEq, reduceCtorEq,
    and_false, exists_false, or_false, checked_eq_error (e := .wait)]
  simp only [exists_and_left, eq_comm (b := t)]

/-- Every meaning answers a next state: none of them stops. -/
theorem exec_is_next (i : Instr) (s : State) : ∃ t, exec i s = .next t := by
  cases i with
  | add | multiply | lessThan | equals | input | output | jumpIfTrue | jumpIfFalse | adjustRelativeBase =>
    exact finish_is_next s _
  | halt => exact ⟨_, rfl⟩

/-- Every step answers a next state. -/
theorem step_is_next (s : State) : ∃ t, step s = .next t := by
  unfold step
  split
  · exact ⟨_, rfl⟩
  · exact ⟨_, rfl⟩
  · exact exec_is_next _ _

theorem step_eq_next_iff {s t : State} : step s = .next t ↔ nextState s = t := by
  obtain ⟨u, hu⟩ := step_is_next s
  simp [nextState, hu]

/-- Where the first stage of a step stops: exactly in a Faulted or Halted state. -/
theorem fetch_eq_stopped {s : State} : fetch s = .stopped ↔ ¬ Running s := by
  unfold fetch Running
  split
  next h => cases hf : s.fault <;> simp_all
  next h => split <;> [skip; split] <;> simp_all

/-- When the first stage raises a fault. -/
theorem fetch_eq_raise {s : State} {r : Raise} :
    fetch s = .raise r ↔ Running s ∧
      ((Config.amax < s.ip ∧ r = ⟨.invalidInstructionPointer, s.ip, 0⟩) ∨
        (s.ip ≤ Config.amax ∧ decode (s.memRead s.ip) = .error r)) := by
  unfold fetch Running
  split
  next h => cases hf : s.fault <;> simp_all
  next h =>
    split
    next h2 => simp_all [not_le.2 h2, eq_comm (b := r)]
    next h2 => split <;> simp_all

/-- When the first stage finds an instruction. -/
theorem fetch_eq_run {s : State} {i : Instr} :
    fetch s = .run i ↔ Running s ∧ s.ip ≤ Config.amax ∧ decode (s.memRead s.ip) = .ok i := by
  unfold fetch Running
  split
  next h => cases hf : s.fault <;> simp_all
  next h =>
    split
    next h2 => simp_all [not_le.2 h2]
    next h2 => split <;> simp_all

/-- Everything a step can be: nothing in a stopped engine, a fetch or decode fault, or the decoded instruction. -/
theorem step_cases {s t : State} (h : step s = .next t) :
    (¬ Running s ∧ t = s) ∨ (∃ r, fetch s = .raise r ∧ t = s.takeFault r) ∨ (∃ i, fetch s = .run i ∧ exec i s = .next t) := by
  unfold step at h
  split at h
  next hf => cases h; exact .inl ⟨fetch_eq_stopped.1 hf, rfl⟩
  next hf => cases h; exact .inr (.inl ⟨_, hf, rfl⟩)
  next hf => exact .inr (.inr ⟨_, hf, h⟩)

end Sys2Proof.Laws
end

