-- ==== Sys2Proof/Tests/Slice0.lean ====
section
/-! SUPPORT. Tests, each expected value taken from the vector of spec/95_test_vectors.md or the rule named in its comment, and a
witness for the hypotheses of each statement of Certificates/Slice0/Obligations.lean. -/

namespace Sys2Proof.Tests

open Sys2Proof.Machine Sys2Proof.Claims

/-- A program from address 0 at reset, with the words the host has on offer. -/
def build (program : List Word) (offered : List Word) : State :=
  { State.reset with mem := Memory.load 0 program, offered := offered }

/-- An engine at `ip` with relative base `rb`. -/
def midway (program : List Word) (ip : Nat) (rb : Word) : State :=
  { State.reset with mem := Memory.load 0 program, ip := ip, rb := rb }

/-- Words in the last cells of the address space, with `ip` at the first of them. -/
def atTop (words : List Word) : State :=
  { State.reset with mem := Memory.load (Config.amax + 1 - words.length) words, ip := Config.amax + 1 - words.length }

/-! ### Well-formedness refuses an Immediate destination (R65) -/

theorem test_wellFormed_refuses_add : (Instr.add .position .position .immediate).wellFormed = false := by decide
theorem test_wellFormed_refuses_multiply : (Instr.multiply .immediate .relative .immediate).wellFormed = false := by decide
theorem test_wellFormed_refuses_input : (Instr.input .immediate).wellFormed = false := by decide
theorem test_wellFormed_refuses_lessThan : (Instr.lessThan .position .position .immediate).wellFormed = false := by decide
theorem test_wellFormed_refuses_equals : (Instr.equals .relative .relative .immediate).wellFormed = false := by decide

/-! ### Decoding (L2.1), the word written as its decimal digits: destination, second, first mode digit, two opcode digits -/

theorem test_decode_add : decode 21101 = .ok (.add .immediate .immediate .relative) := by decide
theorem test_decode_multiply : decode 1002 = .ok (.multiply .position .immediate .position) := by decide
theorem test_decode_input : decode 203 = .ok (.input .relative) := by decide
theorem test_decode_output : decode 104 = .ok (.output .immediate) := by decide
/-- R61: parameter 1 has digit 2, parameter 2 digit 0. -/
theorem test_decode_jumpIfTrue : decode 205 = .ok (.jumpIfTrue .relative .position) := by decide
/-- R61: parameter 1 has digit 0, parameter 2 digit 1. -/
theorem test_decode_jumpIfFalse : decode 1006 = .ok (.jumpIfFalse .position .immediate) := by decide
/-- R61: digits 2, 0, 1. -/
theorem test_decode_lessThan : decode 20107 = .ok (.lessThan .immediate .position .relative) := by decide
/-- R61: digits 0, 2, 1. -/
theorem test_decode_equals : decode 2108 = .ok (.equals .immediate .relative .position) := by decide
theorem test_decode_adjustRelativeBase : decode 209 = .ok (.adjustRelativeBase .relative) := by decide
theorem test_decode_halt : decode 99 = .ok .halt := by decide
theorem test_decode_zero : decode 0 = .error ⟨.invalidOpcode, 0, 0⟩ := by decide
theorem test_decode_negative : decode (-1) = .error ⟨.invalidOpcode, -1, 0⟩ := by decide
theorem test_decode_field_zero : decode 1100000 = .error ⟨.invalidOpcode, 1100000, 0⟩ := by decide
theorem test_decode_mode : decode 30001 = .error ⟨.invalidMode, 30001, 3⟩ := by decide
theorem test_decode_digits_beyond_arity : decode 399 = .error ⟨.additionalDigits, 399, 0⟩ := by decide
theorem test_decode_immediate_input : decode 103 = .error ⟨.immediateWriteDestination, 103, 1⟩ := by decide
theorem test_decode_immediate_writer : decode 11107 = .error ⟨.immediateWriteDestination, 11107, 3⟩ := by decide
/-- The first of the two cells of a table number is its 64 low bits. -/
theorem test_decodeTableWord : decodeTableWord 128 (104 + 7 * 2 ^ 64) = some (.output .immediate) := by decide
theorem test_withFetchWord : ((nextState (State.reset.withFetchWord 128 (104 + 7 * 2 ^ 64))).trace) = [.given 7] := by decide

/-! ### One step of each instruction -/

/-- AR1. -/
theorem test_add : (nextState (build [1101, 2, 3, 5, 99, 0] [])).memRead 5 = 5 := by decide
/-- AR2. -/
theorem test_add_overflow : (nextState (build [1101, 9223372036854775807, 1, 5, 99, 0] [])).fault =
    some ⟨.arithmeticOverflow, 7, 0, 9223372036854775808, 0⟩ := by decide
/-- AR7. -/
theorem test_multiply : (nextState (build [1102, -3, 5, 5, 99, 0] [])).memRead 5 = -15 := by decide
/-- AR5. -/
theorem test_multiply_overflow : (nextState (build [1102, -1, -9223372036854775808, 5, 99, 0] [])).fault =
    some ⟨.arithmeticOverflow, 7, 0, 9223372036854775808, 0⟩ := by decide
/-- IO3, its second step: the destination is the instruction's own parameter cell. -/
theorem test_input_own_cell : (nextState { midway [109, 5, 203, -2, 99] 2 5 with offered := [42] }).memRead 3 = 42 := by decide
/-- IO2: the word is not taken. -/
theorem test_input_fault_keeps_offer : (nextState (build [203, -1, 99] [7])).fault = some ⟨.invalidAddress, 1, 0, -1, 1⟩ ∧
    (nextState (build [203, -1, 99] [7])).offered = [7] := by decide
/-- IO4. -/
theorem test_output : (nextState (build [4, 3, 99, -17] [])).trace = [.given (-17)] := by decide
/-- IO8. -/
theorem test_output_fault : (nextState (build [4, -1, 99] [])).fault = some ⟨.invalidAddress, 1, 0, -1, 1⟩ := by decide
/-- JP4. -/
theorem test_jumpIfTrue : (nextState (build [1105, -5, 4, 99, 104, 7, 99] [])).ip = 4 := by decide
/-- JP5. -/
theorem test_jumpIfTrue_bad_target : (nextState (build [1105, 1, -1, 99] [])).fault =
    some ⟨.invalidInstructionPointer, 2, 0, -1, 2⟩ := by decide
/-- JP3. -/
theorem test_jumpIfFalse : (nextState (build [1106, 0, 4, 99, 104, 7, 99] [])).ip = 4 := by decide
/-- JP6. -/
theorem test_jumpIfFalse_not_taken : (nextState (build [1106, 1, -1, 99] [])).ip = 3 := by decide
/-- CMP7. -/
theorem test_lessThan_signed :
    (nextState (build [1107, -9223372036854775808, 9223372036854775807, 5, 99, 9] [])).memRead 5 = 1 := by decide
/-- CMP4. -/
theorem test_lessThan_equal : (nextState (build [1107, 4, 4, 5, 99, 9] [])).memRead 5 = 0 := by decide
/-- CMP5. -/
theorem test_equals : (nextState (build [1108, 4, 4, 5, 99, 9] [])).memRead 5 = 1 := by decide
/-- CMP6. -/
theorem test_equals_not :
    (nextState (build [1108, -9223372036854775808, 9223372036854775807, 5, 99, 9] [])).memRead 5 = 0 := by decide
/-- RB5. -/
theorem test_adjustRelativeBase : (nextState (build [209, 0, 99] [])).rb = 209 := by decide
/-- RB6, its second step. -/
theorem test_adjustRelativeBase_overflow :
    (nextState (midway [109, 9223372036854775807, 109, 1, 99] 2 9223372036854775807)).fault =
      some ⟨.arithmeticOverflow, 7, 2, 9223372036854775808, 0⟩ := by decide
/-- HL1. -/
theorem test_halt : (nextState (build [99] [])).halted = true ∧ (nextState (build [99] [])).ip = 0 := by decide
/-- HL3. -/
theorem test_empty_program : (nextState State.reset).fault = some ⟨.invalidOpcode, 3, 0, 0, 0⟩ := by decide
/-- R92 at the top of the address space, as SA2 has it for 4-bit addresses. -/
theorem test_extent : (nextState (atTop [104])).fault =
    some ⟨.invalidInstructionPointer, 2, 2 ^ 64 - 1, 2 ^ 64, 0⟩ := by decide
/-- R97 at the top of the address space, as SA3 has it for 4-bit addresses. -/
theorem test_last_instruction_fits : (nextState (atTop [1101, 1, 1, 0])).memRead 0 = 2 ∧
    (nextState (atTop [1101, 1, 1, 0])).ip = 2 ^ 64 := by decide

/-! ### Witnesses: for each statement with hypotheses, a state and operands that meet all of them, at a boundary where one is near -/

theorem witness_DecodeInvertsEncode : (Instr.add .position .immediate .relative).wellFormed = true := by decide

theorem witness_DecodedWordIsItsEncoding : decode 22207 = .ok (.lessThan .relative .relative .relative) := by decide

theorem witness_DecodedOpcodeIsWordModHundred :
    decode 1105 = .ok (.jumpIfTrue .immediate .immediate) ∧ Running (build [99] []) ∧ Running (midway [109, 0, 99] 2 0) ∧
      (midway [109, 0, 99] 2 0).ip ≤ Config.amax ∧ (build [99] []).memRead 0 = (midway [109, 0, 99] 2 0).memRead 2 := by
  unfold Running; decide

theorem witness_WriteSetsOneCell : Config.amax ≤ Config.amax ∧ (0 : Nat) ≤ Config.amax := by decide

theorem witness_EqualReadsMeanEqualMemories :
    Memory.wf [(0, 1), (Config.amax, -1)] ∧ ∀ a, Memory.read [(0, 1), (Config.amax, -1)] a = Memory.read [(0, 1), (Config.amax, -1)] a :=
  ⟨by decide, fun _ => rfl⟩

/-- The Add of AR1 has cell 5 as its destination and no other. -/
theorem writes_only_five {a : Nat} (h : Writes (build [1101, 2, 3, 5, 99, 0] []) a) : a = 5 := by
  obtain ⟨-, i, k, m, hi, hk, hm, ha, -⟩ := h
  have hf : fetch (build [1101, 2, 3, 5, 99, 0] []) = .run (.add .immediate .immediate .position) := by decide
  cases hf.symm.trans hi
  cases hk
  cases hm
  exact Int.ofNat_inj.1 ha

/-- The Halt cell of the program, the first cell beyond the program, and the last of all. -/
theorem witness_UnwrittenCellsKeepTheirResetValue :
    State.construct [1101, 2, 3, 5, 99, 0] [] true = some (build [1101, 2, 3, 5, 99, 0] []) ∧
      ∀ a, a ∈ [4, 6, Config.amax] → a ≤ Config.amax ∧ ∀ j, j < 1 → ¬ Writes (runSteps j (build [1101, 2, 3, 5, 99, 0] [])) a := by
  refine ⟨by decide, fun a ha => ⟨?_, fun j hj hw => ?_⟩⟩
  · revert a; decide
  · obtain rfl : j = 0 := by omega
    cases writes_only_five hw
    exact absurd ha (by decide)

theorem witness_ConstructionGivesTheResetState :
    (State.construct [9223372036854775807, -9223372036854775808] [7] true).isSome = true ∧
      State.construct [9223372036854775808] [7] true = none := by decide

theorem witness_TrailingZerosAreInvisible : ([99] : List Int).length + 3 ≤ Config.amax + 1 := by decide

theorem witness_ConstructedEnginesHaveTheInvariant :
    State.construct [1105, 1, 0] [] true = some (build [1105, 1, 0] []) := by decide

/-- The destination of an Input that waits (IO10) and of an Add that overflows (AR2) is not written. -/
theorem witness_UnwrittenCellsKeepTheirResetValue_destination :
    ¬ Writes (build [3, 0, 99] []) 0 ∧ ¬ Writes (build [1101, 9223372036854775807, 1, 5, 99, 0] []) 5 :=
  ⟨fun h => h.1.2 (by decide), fun h => absurd h.1.1 (by decide)⟩

/-- The destination of an Add that retires (AR1) is written. -/
theorem test_writes : Writes (build [1101, 2, 3, 5, 99, 0] []) 5 :=
  ⟨⟨by decide, by decide⟩, .add .immediate .immediate .position, 3, .position, by decide, rfl, rfl, rfl, by decide⟩

/-- Cell 2 on: a three-parameter word with modes Position, Immediate, Relative, and `rb = 5`. -/
def binary : State := midway [109, 5, 21001, 0, 7, -1] 2 5

/-- Its operands: `mem[0] = 109`, `7`, and the address `5 - 1`. -/
theorem binary_operands :
    Extent binary 3 ∧ SourceIs binary .position 1 109 ∧ SourceIs binary .immediate 2 7 ∧ DestinationIs binary .relative 3 4 :=
  ⟨show binary.ip + 3 ≤ Config.amax by decide, ⟨0, rfl, by decide, rfl⟩, rfl, rfl, by decide⟩

/-- The engine after the last instruction of the address space, and an engine in the middle of a run. -/
theorem witness_StepKeepsTheInvariant :
    Inv binary ∧ Inv { State.reset with ip := Config.amax + 1 } ∧ Inv (nextState (build [303] [])) ∧
      step binary = .next { binary with mem := [(0, 109), (1, 5), (2, 21001), (4, 116), (5, -1)], ip := 6 } := by
  refine ⟨⟨by decide, by decide, by decide, fun _ h => nomatch h⟩, ⟨by decide, by decide, by decide, fun _ h => nomatch h⟩,
    ⟨by decide, by decide, by decide, ?_⟩, rfl⟩
  rintro r hr
  cases hr
  exact ⟨rfl, rfl, rfl, by decide, by decide⟩

theorem witness_StepRunsTheDecodedInstruction :
    Running binary ∧ binary.ip ≤ Config.amax ∧
      decode (binary.memRead binary.ip) = .ok (.add .position .immediate .relative) := by
  unfold Running; decide

theorem witness_PlacedTableWordIsTheOneThatRuns :
    decodeTableWord 256 (1101 + 2 * 2 ^ 64 + 3 * 2 ^ 128 + 5 * 2 ^ 192) = some (.add .immediate .immediate .position) := by decide

theorem witness_IllegalWordFaultsAtDecode :
    Running (build [303] []) ∧ (build [303] []).ip ≤ Config.amax ∧
      decode ((build [303] []).memRead (build [303] []).ip) = .error ⟨.invalidMode, 303, 1⟩ := by
  unfold Running; decide

theorem witness_ZeroCellFaultsAsInvalidOpcode :
    Running State.reset ∧ State.reset.ip ≤ Config.amax ∧ State.reset.memRead State.reset.ip = 0 := by
  unfold Running; decide

theorem witness_FetchAboveTheTopFaults :
    Running { State.reset with ip := Config.amax + 1 } ∧ Config.amax < ({ State.reset with ip := Config.amax + 1 } : State).ip := by
  unfold Running; decide

theorem witness_ExtentAboveTheTopFaults :
    Instr.output .immediate ≠ .halt ∧ Config.amax < (atTop [104]).ip + (Instr.output .immediate).tag.arity := by decide

/-- FT6, the first parameter, and AR13, the last. -/
theorem witness_FirstBadOperandFaults :
    (Extent (build [1, -1, -2, -3, 99] []) 3 ∧
      FirstBad (build [1, -1, -2, -3, 99] []) (.add .position .position .position) 1 (-1)) ∧
    Extent (build [1101, 9223372036854775807, 1, -1, 99] []) 3 ∧
      FirstBad (build [1101, 9223372036854775807, 1, -1, 99] []) (.add .immediate .immediate .position) 3 (-1) := by
  refine ⟨⟨show 0 + 3 ≤ Config.amax by decide, by decide, ⟨_, rfl, rfl, by decide⟩, ?_⟩,
    show 0 + 3 ≤ Config.amax by decide, by decide, ⟨_, rfl, rfl, by decide⟩, ?_⟩
  · intro j _ _ h1 h2
    omega
  · intro j m u h1 h2 hm h
    obtain rfl | rfl : j = 1 ∨ j = 2 := by omega
    all_goals cases hm; exact h.1

theorem witness_FaultChangesOnlyTheRecord :
    (build [303] []).fault = none ∧
      step (build [303] []) = .next { build [303] [] with fault := some ⟨.invalidMode, 4, 0, 303, 1⟩ } :=
  ⟨rfl, rfl⟩

theorem witness_StoppedEngineNeverMoves :
    (nextState State.reset).fault = some ⟨.invalidOpcode, 3, 0, 0, 0⟩ ∧
      (nextState (build [99] [])).fault = none ∧ (nextState (build [99] [])).halted = true := by decide

theorem witness_StepResultFollowsTheLabel : Running binary := by unfold Running; decide

theorem witness_RunReturnsAtHaltOrFault :
    (run 2 (build [109, 19, 99] [])).2 = some .ok ∧ (run 1 State.reset).2 = some (.err ⟨.invalidOpcode, 3, 0, 0, 0⟩) := by decide

/-- RB1 after its two steps, HL3 after one, JP12 after three, and IO10, which waits. -/
theorem witness_RunReturnsAtHaltOrFault_clauses :
    (runSteps 2 (build [109, 19, 99] [])).status = .halted ∧
      (runSteps 1 State.reset).fault = some ⟨.invalidOpcode, 3, 0, 0, 0⟩ ∧
      Running (runSteps 3 (build [1105, 1, 0] [])) ∧ Running (runSteps 3 (build [3, 0, 99] [])) := by
  unfold Running; decide

/-- The sum and the product of the operands, and the greatest word. -/
theorem witness_AddStoresTheExactSum :
    Extent binary 3 ∧ SourceIs binary .position 1 109 ∧ SourceIs binary .immediate 2 7 ∧ DestinationIs binary .relative 3 4 ∧
      InWord (109 + 7) ∧ InWord (9223372036854775806 + 1) :=
  ⟨binary_operands.1, binary_operands.2.1, binary_operands.2.2.1, binary_operands.2.2.2, by unfold InWord; decide, by unfold InWord; decide⟩

theorem witness_MultiplyStoresTheExactProduct :
    Extent binary 3 ∧ SourceIs binary .position 1 109 ∧ SourceIs binary .immediate 2 7 ∧ DestinationIs binary .relative 3 4 ∧
      InWord (109 * 7) ∧ InWord (-9223372036854775808 * 1) :=
  ⟨binary_operands.1, binary_operands.2.1, binary_operands.2.2.1, binary_operands.2.2.2, by unfold InWord; decide, by unfold InWord; decide⟩

theorem witness_LessThanStoresOneOrZero :
    Extent binary 3 ∧ SourceIs binary .position 1 109 ∧ SourceIs binary .immediate 2 7 ∧ DestinationIs binary .relative 3 4 :=
  binary_operands

theorem witness_EqualsStoresOneOrZero :
    Extent binary 3 ∧ SourceIs binary .position 1 109 ∧ SourceIs binary .immediate 2 7 ∧ DestinationIs binary .relative 3 4 :=
  binary_operands

/-- IO3, its second step. -/
theorem witness_InputStoresTheOfferedWord :
    let s := { midway [109, 5, 203, -2, 99] 2 5 with offered := [42] };
    Extent s 1 ∧ DestinationIs s .relative 1 3 ∧ s.offered = 42 :: [] :=
  ⟨show 2 + 1 ≤ Config.amax by decide, ⟨rfl, by decide⟩, rfl⟩

/-- IO4. -/
theorem witness_OutputGivesItsOperand :
    Extent (build [4, 3, 99, -17] []) 1 ∧ SourceIs (build [4, 3, 99, -17] []) .position 1 (-17 : Word).toInt ∧
      (build [4, 3, 99, -17] []).sinkReady = true :=
  ⟨show 0 + 1 ≤ Config.amax by decide, ⟨3, rfl, by decide, rfl⟩, rfl⟩

/-- IO10, and IO4 with a host that takes nothing. -/
theorem witness_WaitingOnAPortChangesNothing :
    (Extent (build [3, 0, 99] []) 1 ∧ DestinationIs (build [3, 0, 99] []) .position 1 0 ∧ (build [3, 0, 99] []).offered = []) ∧
    let s := { build [4, 3, 99, -17] [] with sinkReady := false };
    Extent s 1 ∧ SourceIs s .position 1 (-17) ∧ s.sinkReady = false :=
  ⟨⟨show 0 + 1 ≤ Config.amax by decide, ⟨rfl, by decide⟩, rfl⟩, show 0 + 1 ≤ Config.amax by decide, ⟨3, rfl, by decide, rfl⟩, rfl⟩

/-- A taken jump to the lowest target (JP12), and one that is not taken (JP2). -/
theorem witness_JumpIfTrueGoesToItsTarget :
    (Extent (build [1105, 1, 0] []) 2 ∧ SourceIs (build [1105, 1, 0] []) .immediate 1 1 ∧
      SourceIs (build [1105, 1, 0] []) .immediate 2 0) ∧
    Extent (build [1105, 0, 4] []) 2 ∧ SourceIs (build [1105, 0, 4] []) .immediate 1 0 ∧
      SourceIs (build [1105, 0, 4] []) .immediate 2 4 :=
  ⟨⟨show 0 + 2 ≤ Config.amax by decide, rfl, rfl⟩, show 0 + 2 ≤ Config.amax by decide, rfl, rfl⟩

/-- A taken jump with both operands in memory, and one that is not taken (JP6). -/
theorem witness_JumpIfFalseGoesToItsTarget :
    (Extent (build [6, 5, 6, 99, 0, 0, 3] []) 2 ∧ SourceIs (build [6, 5, 6, 99, 0, 0, 3] []) .position 1 0 ∧
      SourceIs (build [6, 5, 6, 99, 0, 0, 3] []) .position 2 3) ∧
    Extent (build [1106, 1, -1, 99] []) 2 ∧ SourceIs (build [1106, 1, -1, 99] []) .immediate 1 1 ∧
      SourceIs (build [1106, 1, -1, 99] []) .immediate 2 (-1) :=
  ⟨⟨show 0 + 2 ≤ Config.amax by decide, ⟨5, rfl, by decide, rfl⟩, ⟨6, rfl, by decide, rfl⟩⟩,
    show 0 + 2 ≤ Config.amax by decide, rfl, rfl⟩

/-- JP5, and its JumpIfFalse. -/
theorem witness_TakenJumpToNegativeTargetFaults :
    (Extent (build [1105, 1, -1, 99] []) 2 ∧ SourceIs (build [1105, 1, -1, 99] []) .immediate 1 1 ∧
      SourceIs (build [1105, 1, -1, 99] []) .immediate 2 (-1)) ∧
    Extent (build [1106, 0, -1, 99] []) 2 ∧ SourceIs (build [1106, 0, -1, 99] []) .immediate 1 0 ∧
      SourceIs (build [1106, 0, -1, 99] []) .immediate 2 (-1) :=
  ⟨⟨show 0 + 2 ≤ Config.amax by decide, rfl, rfl⟩, show 0 + 2 ≤ Config.amax by decide, rfl, rfl⟩

/-- RB5, and the greatest word as the sum. -/
theorem witness_AdjustRelativeBaseAddsItsOperand :
    (Extent (build [209, 0, 99] []) 1 ∧ SourceIs (build [209, 0, 99] []) .relative 1 209 ∧ InWord (0 + 209)) ∧
    let s := midway [109, 9223372036854775806, 109, 1, 99] 2 9223372036854775806;
    Extent s 1 ∧ SourceIs s .immediate 1 1 ∧ InWord (s.rb.toInt + 1) :=
  ⟨⟨show 0 + 1 ≤ Config.amax by decide, ⟨0, rfl, by decide, rfl⟩, by unfold InWord; decide⟩,
    show 2 + 1 ≤ Config.amax by decide, rfl, by unfold InWord; decide⟩

theorem witness_HaltStopsInPlace :
    Running (build [99] []) ∧ (build [99] []).ip ≤ Config.amax ∧ (build [99] []).memRead (build [99] []).ip = 99 := by
  unfold Running; decide

/-- AR2, AR5 and RB6. -/
theorem witness_OverflowFaultsWithTheExactResult :
    (let s := build [1101, 9223372036854775807, 1, 5, 99, 0] [];
      Extent s 3 ∧ SourceIs s .immediate 1 9223372036854775807 ∧ SourceIs s .immediate 2 1 ∧ DestinationIs s .position 3 5 ∧
        ¬ InWord (9223372036854775807 + 1)) ∧
    (let s := build [1102, -1, -9223372036854775808, 5, 99, 0] [];
      Extent s 3 ∧ SourceIs s .immediate 1 (-1) ∧ SourceIs s .immediate 2 (-9223372036854775808) ∧ DestinationIs s .position 3 5 ∧
        ¬ InWord (-1 * -9223372036854775808)) ∧
    let s := midway [109, 9223372036854775807, 109, 1, 99] 2 9223372036854775807;
    Extent s 1 ∧ SourceIs s .immediate 1 1 ∧ ¬ InWord (s.rb.toInt + 1) :=
  ⟨⟨show 0 + 3 ≤ Config.amax by decide, rfl, rfl, ⟨rfl, by decide⟩, by unfold InWord; decide⟩,
    ⟨show 0 + 3 ≤ Config.amax by decide, rfl, rfl, ⟨rfl, by decide⟩, by unfold InWord; decide⟩,
    show 2 + 1 ≤ Config.amax by decide, rfl, by unfold InWord; decide⟩

/-- `Jump #2`, `Nop`, and `Move #7, [4]`. -/
theorem witness_PseudoInstructionsExpand :
    (let s := build [1105, 1, 2] [];
      Running s ∧ Extent s 2 ∧ Holds s s.ip (assembleJump ⟨.immediate, 2⟩) ∧ SourceIs s .immediate 2 (2 : Nat)) ∧
    (let s := build [1105, 0, 0] [];
      Running s ∧ Extent s 2 ∧ Holds s s.ip assembleNop) ∧
    let s := build [1101, 7, 0, 4] [];
    Running s ∧ Extent s 3 ∧ Holds s s.ip (assembleMove ⟨.immediate, 7⟩ ⟨.position, 4⟩) ∧ SourceIs s .immediate 1 7 ∧
      DestinationIs s .position 3 4 :=
  ⟨⟨⟨rfl, rfl⟩, show 0 + 2 ≤ Config.amax by decide, by unfold Holds; decide, rfl⟩,
    ⟨⟨rfl, rfl⟩, show 0 + 2 ≤ Config.amax by decide, by unfold Holds; decide⟩,
    ⟨rfl, rfl⟩, show 0 + 3 ≤ Config.amax by decide, by unfold Holds; decide, rfl, rfl, by decide⟩

theorem witness_OnlyAdjustRelativeBaseWritesRb :
    step (build [109, 19, 99] []) = .next { build [109, 19, 99] [] with rb := 19, ip := 2 } ∧ (19 : Word) ≠ (build [109, 19, 99] []).rb :=
  ⟨rfl, by decide⟩

/-- Construction, a Halted engine, and the step that halts one. -/
theorem witness_OnlyHaltSetsHalted :
    State.construct [99] [] true = some (build [99] []) ∧ fetch (build [99] []) = .run .halt ∧ (build [99] []).halted = false ∧
      step (build [99] []) = .next { build [99] [] with halted := true } ∧
      step { build [99] [] with halted := true } = .next { build [99] [] with halted := true } :=
  ⟨by decide, by decide, rfl, rfl, rfl⟩

theorem witness_OnlyTheDestinationCellChanges :
    step binary = .next (nextState binary) ∧ (nextState binary).memRead 4 ≠ binary.memRead 4 := ⟨rfl, by decide⟩

/-- A step that retires an instruction by its width, a jump, a Halt, and the engine after the last instruction. -/
theorem witness_IpMovesByWidthOrTakenJump :
    (∀ s, s ∈ [binary, build [1105, 1, 50] [], build [99] []] →
      (∃ i, fetch s = .run i) ∧ step s = .next (nextState s) ∧ (nextState s).fault = none ∧ label s ≠ none) ∧
    Running { State.reset with ip := Config.amax + 1 } := by
  refine ⟨fun s hs => ?_, rfl, rfl⟩
  simp only [List.mem_cons, List.not_mem_nil, or_false] at hs
  rcases hs with rfl | rfl | rfl
  · exact ⟨⟨_, rfl⟩, rfl, rfl, by decide⟩
  · exact ⟨⟨_, rfl⟩, rfl, rfl, by decide⟩
  · exact ⟨⟨_, rfl⟩, rfl, rfl, by decide⟩

/-- A step with no transfer, one that takes a word, and one that gives a word. -/
theorem witness_TransfersArePartOfInputAndOutputSteps :
    (∀ s, s ∈ [binary, build [3, 0, 99] [7], build [4, 3, 99, -17] []] → step s = .next (nextState s)) ∧
      (nextState binary).trace = binary.trace ∧ (nextState (build [3, 0, 99] [7])).trace = [.taken 7] ∧
      (nextState (build [4, 3, 99, -17] [])).trace = [.given (-17)] := by
  refine ⟨fun s hs => ?_, by decide, by decide, by decide⟩
  simp only [List.mem_cons, List.not_mem_nil, or_false] at hs
  rcases hs with rfl | rfl | rfl <;> rfl

theorem witness_InputsAreTakenInOrder :
    (build [3, 0, 99] [7]).trace = [] ∧ label (runSteps 0 (build [3, 0, 99] [7])) = some (.input 7) := by decide

theorem witness_EngineNeverReadsTheTrace :
    step (build [4, 3, 99, -17] []) = .next (nextState (build [4, 3, 99, -17] [])) := rfl

theorem witness_HostStrategyRunIsAnInputListRun : ∀ tr, (⟨fun _ => some 7, fun _ => true⟩ : HostStrategy).sink tr = true :=
  fun _ => rfl

/-- The cell after a three-parameter instruction at 0 is the destination of an Add of 98 and 1 and of a Multiply of 9 and 11,
which give a Halt word, and of comparisons that give the word 1, an Add. -/
theorem witness_StoredInstructionIsFetchedNext :
    (∀ x y w : Word, ((x, y, w) ∈ [(98, 1, 1101), (9, 11, 1102), (3, 5, 1107), (4, 4, 1108)]) →
      let s := build [w, x, y, 4] []
      Running s ∧ Extent s 3 ∧ SourceIs s .immediate 1 x.toInt ∧ SourceIs s .immediate 2 y.toInt ∧
        DestinationIs s .position 3 (s.ip + 4)) ∧
    (98 : Int) + 1 = (encode .halt).toInt ∧ (9 : Int) * 11 = (encode .halt).toInt ∧ Instr.halt.wellFormed = true ∧
    (if (3 : Int) < 5 then 1 else 0) = (encode (.add .position .position .position)).toInt ∧
    (if (4 : Int) = 4 then 1 else 0) = (encode (.add .position .position .position)).toInt ∧
    (Instr.add .position .position .position).wellFormed = true ∧
    let s := build [3, 2] [99]
    Running s ∧ Extent s 1 ∧ DestinationIs s .position 1 (s.ip + 2) ∧ s.offered = encode .halt :: [] := by
  refine ⟨fun x y w h => ?_, rfl, rfl, rfl, rfl, rfl, rfl, ⟨rfl, rfl⟩, show 0 + 1 ≤ Config.amax by decide, ⟨rfl, by decide⟩, rfl⟩
  simp only [List.mem_cons, List.not_mem_nil, or_false, Prod.mk.injEq] at h
  rcases h with ⟨rfl, rfl, rfl⟩ | ⟨rfl, rfl, rfl⟩ | ⟨rfl, rfl, rfl⟩ | ⟨rfl, rfl, rfl⟩ <;>
    exact ⟨⟨rfl, rfl⟩, show 0 + 3 ≤ Config.amax by decide, rfl, rfl, rfl, by decide⟩

end Sys2Proof.Tests
end

section
/-! PROOFS. The halted flag (spec/10_state.md R24): what each instruction and each step does to it. -/

namespace Sys2Proof.Proofs

open Sys2Proof.Machine Sys2Proof.Claims Sys2Proof.Laws

theorem construct_halted {program : List Int} {offered : List Word} {ready : Bool} {s : State}
    (h : State.construct program offered ready = some s) : s.halted = false := by
  unfold State.construct at h
  split at h
  · cases h; rfl
  · cases h

theorem status_eq_halted {s : State} : s.status = .halted ↔ s.fault = none ∧ s.halted = true := by
  unfold State.status
  cases hf : s.fault <;> simp

theorem not_running_of_halted {s : State} (h : s.halted = true) : ¬ Running s := by
  rintro ⟨-, hs⟩
  simp [hs] at h

theorem execBinary_keeps_halted {compute : Int → Int → Except Stop Word} {m1 m2 m3 : Mode} {s t : State}
    (h : execBinary compute m1 m2 m3 s = .next t) : t.halted = s.halted := by
  obtain ⟨x, y, d, r, -, -, rfl⟩ | ⟨r, -, rfl⟩ | ⟨-, rfl⟩ := execBinary_eq_next.1 h
  · simp
  · simp
  · rfl

theorem execJump_keeps_halted {taken : Int → Bool} {m1 m2 : Mode} {s t : State}
    (h : execJump taken m1 m2 s = .next t) : t.halted = s.halted := by
  obtain ⟨c, v, -, ht⟩ | ⟨r, -, rfl⟩ | ⟨-, rfl⟩ := execJump_eq_next.1 h
  · split at ht
    · obtain ⟨a, -, rfl⟩ := ht; simp
    · subst ht; simp
  · simp
  · rfl

theorem execInput_keeps_halted {m1 : Mode} {s t : State} (h : execInput m1 s = .next t) : t.halted = s.halted := by
  obtain ⟨d, v, rest, -, -, rfl⟩ | ⟨r, -, rfl⟩ | ⟨-, rfl⟩ := execInput_eq_next.1 h
  · rfl
  · simp
  · rfl

theorem execOutput_keeps_halted {m1 : Mode} {s t : State} (h : execOutput m1 s = .next t) : t.halted = s.halted := by
  obtain ⟨v, -, -, rfl⟩ | ⟨r, -, rfl⟩ | ⟨-, rfl⟩ := execOutput_eq_next.1 h
  · rfl
  · simp
  · rfl

theorem execAdjustRelativeBase_keeps_halted {m1 : Mode} {s t : State} (h : execAdjustRelativeBase m1 s = .next t) :
    t.halted = s.halted := by
  obtain ⟨x, r, -, -, rfl⟩ | ⟨r, -, rfl⟩ | ⟨-, rfl⟩ := execAdjustRelativeBase_eq_next.1 h
  · simp
  · simp
  · rfl

/-- Every instruction but Halt leaves the flag as it was, whether it retires, faults or waits. -/
theorem exec_keeps_halted {i : Instr} {s t : State} (hi : i ≠ .halt) (h : exec i s = .next t) : t.halted = s.halted := by
  cases i with
  | add | multiply | lessThan | equals =>
    simp only [exec, execAdd, execMultiply, execLessThan, execEquals] at h
    exact execBinary_keeps_halted h
  | jumpIfTrue | jumpIfFalse => exact execJump_keeps_halted h
  | input => exact execInput_keeps_halted h
  | output => exact execOutput_keeps_halted h
  | adjustRelativeBase => exact execAdjustRelativeBase_keeps_halted h
  | halt => exact absurd rfl hi

theorem step_of_not_running {s : State} (h : ¬ Running s) : step s = .next s := by
  simp [step, fetch_eq_stopped.2 h]

theorem nextState_of_not_running {s : State} (h : ¬ Running s) : nextState s = s :=
  step_eq_next_iff.1 (step_of_not_running h)

theorem step_of_run {s : State} {i : Instr} (h : fetch s = .run i) : step s = exec i s := by
  simp [step, h]

theorem step_keeps_halted {s t : State} (hi : fetch s ≠ .run .halt) (h : step s = .next t) : t.halted = s.halted := by
  obtain ⟨-, rfl⟩ | ⟨r, -, rfl⟩ | ⟨i, hf, he⟩ := step_cases h
  · rfl
  · simp
  · exact exec_keeps_halted (fun hh => hi (hh ▸ hf)) he

theorem stepResult_of_status_halted {s : State} (h : s.status = .halted) : stepResult s = some (.ok false) := by
  have hs : nextState s = s := nextState_of_not_running (not_running_of_halted (status_eq_halted.1 h).2)
  simp [stepResult, hs, h]

theorem halted_of_step_halt {s t : State} (hf : fetch s = .run .halt) (h : step s = .next t) : t.halted = true := by
  have ht : Host.Outcome.next s.setHalted = .next t := (step_of_run hf).symm.trans h
  cases ht
  exact s.setHalted_halted

/-- Settles O44: a step of an instruction other than Halt keeps the flag, a Halt sets it, and a halted engine has stopped. -/
theorem onlyHaltSetsHalted : Obligations.OnlyHaltSetsHalted := by
  refine ⟨State.reset_halted, fun _ _ _ _ => construct_halted, fun s t h => ⟨fun hh => ⟨?_, fun hf => ?_⟩, fun hs ht => ?_,
    fun hf => halted_of_step_halt hf h⟩⟩
  · exact (step_eq_next_iff.1 h).symm.trans (nextState_of_not_running (not_running_of_halted hh))
  · exact stepResult_of_status_halted (status_eq_halted.2 ⟨hf, hh⟩)
  · by_contra hf
    simp [step_keeps_halted hf h, hs] at ht

end Sys2Proof.Proofs
end

section
/-! PROOFS. Memory (spec/20_memory.md R42, R43): what a write sets, which cell each instruction can change, and what every cell
that no instruction has written reads. -/

namespace Sys2Proof.Proofs

open Sys2Proof.Machine Sys2Proof.Claims Sys2Proof.Laws

/-- Settles O8: the law of a read after a write gives the cells, and the laws of the state give every other field. -/
theorem writeSetsOneCell : Obligations.WriteSetsOneCell := by
  intro s a v _
  have hread : (s.memWrite a v).memRead a = v := s.mem.read_write_same a v
  have hother : OtherCells s (s.memWrite a v) a := fun b hb => s.mem.read_write_other v hb
  exact ⟨hread, hother, s.memWrite_ip a v, s.memWrite_rb a v, ⟨s.memWrite_halted a v, s.memWrite_fault a v⟩,
    s.memWrite_offered a v, s.memWrite_sinkReady a v, s.memWrite_trace a v⟩

/-! ### What one instruction does to memory -/

/-- From `s` to `t` the instruction `i` stored a word in cell `d`, its destination, and raised no fault; where it uses a port, it
made the transfer. -/
def Stores (i : Instr) (s t : State) (d : Nat) : Prop :=
  (∃ k m, i.tag.dest = some k ∧ i.modes[k - 1]? = some m ∧ DestinationIs s m k d) ∧
    (∃ v, t.mem = s.mem.write d v) ∧ t.fault = s.fault ∧ (usesPort i = true → t.trace ≠ s.trace)

theorem execBinary_mem {compute : Int → Int → Except Stop Word} {m1 m2 m3 : Mode} {s t : State}
    (h : execBinary compute m1 m2 m3 s = .next t) :
    t.mem = s.mem ∨ ∃ d, DestinationIs s m3 3 d ∧ (∃ v, t.mem = s.mem.write d v) ∧ t.fault = s.fault := by
  obtain ⟨x, y, d, r, hres, -, rfl⟩ | ⟨r, -, rfl⟩ | ⟨-, rfl⟩ := execBinary_eq_next.1 h
  · obtain ⟨-, -, -, hd⟩ := resolveWriter_eq_ok.1 hres
    exact .inr ⟨d, hd, ⟨r, rfl⟩, rfl⟩
  · exact .inl rfl
  · exact .inl rfl

theorem execInput_mem {m1 : Mode} {s t : State} (h : execInput m1 s = .next t) :
    t.mem = s.mem ∨ ∃ d, Stores (.input m1) s t d := by
  obtain ⟨d, v, rest, hres, -, rfl⟩ | ⟨r, -, rfl⟩ | ⟨-, rfl⟩ := execInput_eq_next.1 h
  · obtain ⟨-, hd⟩ := resolveOneDst_eq_ok.1 hres
    exact .inr ⟨d, ⟨1, m1, rfl, rfl, hd⟩, ⟨v, rfl⟩, rfl, by simp⟩
  · exact .inl rfl
  · exact .inl rfl

theorem execJump_mem {taken : Int → Bool} {m1 m2 : Mode} {s t : State} (h : execJump taken m1 m2 s = .next t) :
    t.mem = s.mem := by
  obtain ⟨c, v, -, ht⟩ | ⟨r, -, rfl⟩ | ⟨-, rfl⟩ := execJump_eq_next.1 h
  · split at ht
    · obtain ⟨a, -, rfl⟩ := ht; rfl
    · subst ht; rfl
  · rfl
  · rfl

theorem execOutput_mem {m1 : Mode} {s t : State} (h : execOutput m1 s = .next t) : t.mem = s.mem := by
  obtain ⟨v, -, -, rfl⟩ | ⟨r, -, rfl⟩ | ⟨-, rfl⟩ := execOutput_eq_next.1 h <;> rfl

theorem execAdjustRelativeBase_mem {m1 : Mode} {s t : State} (h : execAdjustRelativeBase m1 s = .next t) :
    t.mem = s.mem := by
  obtain ⟨x, r, -, -, rfl⟩ | ⟨r, -, rfl⟩ | ⟨-, rfl⟩ := execAdjustRelativeBase_eq_next.1 h <;> rfl

theorem execHalt_mem {s t : State} (h : execHalt s = .next t) : t.mem = s.mem := by
  cases h; rfl

/-- An instruction leaves memory as it was, or stores in its destination. -/
theorem exec_mem {i : Instr} {s t : State} (h : exec i s = .next t) : t.mem = s.mem ∨ ∃ d, Stores i s t d := by
  cases i with
  | add m1 m2 m3 | multiply m1 m2 m3 | lessThan m1 m2 m3 | equals m1 m2 m3 =>
    simp only [exec, execAdd, execMultiply, execLessThan, execEquals] at h
    refine (execBinary_mem h).imp_right fun ⟨d, hd, hmem, hfault⟩ => ?_
    exact ⟨d, ⟨3, m3, rfl, rfl, hd⟩, hmem, hfault, nofun⟩
  | input => exact execInput_mem h
  | output => exact .inl (execOutput_mem h)
  | jumpIfTrue | jumpIfFalse => exact .inl (execJump_mem h)
  | adjustRelativeBase => exact .inl (execAdjustRelativeBase_mem h)
  | halt => exact .inl (execHalt_mem h)

/-! ### A step that changes a cell writes it -/

theorem running_of_run {s : State} {i : Instr} (h : fetch s = .run i) : Running s := (fetch_eq_run.1 h).1

theorem status_eq_running {s : State} : s.status = .running ↔ Running s := by
  unfold State.status Running
  cases hf : s.fault <;> simp

/-- A Running engine that does not wait makes a transition (R99). -/
theorem label_ne_none {s : State} (hr : Running s) (hw : waits s = false) : label s ≠ none := by
  simp only [label, status_eq_running.2 hr]
  split
  · simp
  · simp
  · split <;> simp [hw]

theorem waits_eq_false_of_run {s : State} {i : Instr} (hf : fetch s = .run i)
    (h : usesPort i = true → (nextState s).trace ≠ s.trace) : waits s = false := by
  simp only [waits, hf]
  cases hp : usesPort i <;> simp_all

/-- An instruction that stores in its destination retires, so the step writes that cell. -/
theorem writes_of_stores {s t : State} {i : Instr} {d : Nat} (hf : fetch s = .run i) (hs : step s = .next t)
    (h : Stores i s t d) : Writes s d := by
  obtain ⟨⟨k, m, hk, hm, hd⟩, -, hfault, htrace⟩ := h
  obtain rfl := step_eq_next_iff.1 hs
  have hr : Running s := running_of_run hf
  exact ⟨⟨hfault.trans hr.1, label_ne_none hr (waits_eq_false_of_run hf htrace)⟩, i, k, m, hf, hk, hm, hd⟩

/-- A step changes no cell but the one it writes. -/
theorem writes_of_memRead_ne {s t : State} {a : Nat} (hs : step s = .next t) (ha : t.memRead a ≠ s.memRead a) :
    Writes s a := by
  have hne : t.mem ≠ s.mem := fun h => ha (by simp [h])
  obtain ⟨-, rfl⟩ | ⟨r, -, rfl⟩ | ⟨i, hf, he⟩ := step_cases hs
  · exact absurd rfl hne
  · exact absurd rfl hne
  · obtain h | ⟨d, hd⟩ := exec_mem he
    · exact absurd h hne
    · obtain rfl : a = d := by
        obtain ⟨-, ⟨v, hv⟩, -⟩ := hd
        by_contra had
        exact ha (by simp [hv, had])
      exact writes_of_stores hf hs hd

theorem nextState_memRead_of_not_writes {s : State} {a : Nat} (h : ¬ Writes s a) :
    (nextState s).memRead a = s.memRead a := by
  by_contra hne
  exact h (writes_of_memRead_ne (step_eq_next_iff.2 rfl) hne)

/-! ### Runs from construction -/

/-- A run keeps every cell that none of its steps writes. -/
theorem runSteps_memRead_of_not_writes {a : Nat} (k : Nat) (s : State) (h : ∀ j, j < k → ¬ Writes (runSteps j s) a) :
    (runSteps k s).memRead a = s.memRead a := by
  induction k generalizing s with
  | zero => rfl
  | succ k ih =>
    calc (runSteps k (nextState s)).memRead a
        = (nextState s).memRead a := ih (nextState s) fun j hj => h (j + 1) (by omega)
      _ = s.memRead a := nextState_memRead_of_not_writes (h 0 (by omega))

/-- What construction accepts, and the memory it loads (R200). -/
theorem construct_mem {program : List Int} {offered : List Word} {ready : Bool} {s : State}
    (h : State.construct program offered ready = some s) :
    (∀ v ∈ program, InWord v) ∧ s.mem = Memory.load 0 (program.map toWord) := by
  unfold State.construct at h
  split at h
  next hc =>
    cases h
    simp only [Bool.and_eq_true, List.all_eq_true, fitsWord_iff] at hc
    exact ⟨hc.1, rfl⟩
  next => cases h

/-- A constructed engine's cells read the program, and 0 beyond it (R42, R200). -/
theorem construct_memRead {program : List Int} {offered : List Word} {ready : Bool} {s : State}
    (h : State.construct program offered ready = some s) (a : Nat) : (s.memRead a).toInt = program.getD a 0 := by
  obtain ⟨hwords, hmem⟩ := construct_mem h
  have hload := Memory.read_load 0 a (program.map toWord)
  rw [Nat.zero_add] at hload
  rw [State.memRead_eq, hmem, hload]
  obtain ha | ha := Nat.lt_or_ge a program.length
  · simp [ha, toInt_toWord (hwords _ (List.getElem_mem ha))]
  · simp [ha]

/-- Settles O10: the run keeps the cell as construction loaded it. -/
theorem unwrittenCellsKeepTheirResetValue : Obligations.UnwrittenCellsKeepTheirResetValue := by
  intro program offered ready s k a hs _ hw
  rw [runSteps_memRead_of_not_writes k s hw, construct_memRead hs]
  split
  · rfl
  next ha => exact List.getD_eq_default _ _ (not_lt.1 ha)

end Sys2Proof.Proofs
end

section
/-! PROOFS. The instruction word (spec/30_encoding.md R64, R66, R69): what each format of the decoder answers, that the decoded
instruction's tag is the one its word's opcode field names, and that a fetch depends on the word alone. -/

namespace Sys2Proof.Proofs

open Sys2Proof.Machine Sys2Proof.Claims Sys2Proof.Laws

/-! ### When each format answers an instruction -/

theorem decodeWriter_eq_ok {w q : Int} {make : Mode → Mode → Mode → Instr} {i : Instr} :
    decodeWriter w q make = .ok i ↔ ∃ m1 m2 m3,
      (m1.digit = digit q 0 ∧ m2.digit = digit q 1 ∧ m3.digit = digit q 2) ∧
        q.tdiv (10 ^ 3) = 0 ∧ m3.writable = true ∧ make m1 m2 m3 = i := by
  simp [decodeWriter, bind_eq_ok, modeAt_eq_ok, noExcessDigits_eq_ok, destinationWritable_eq_ok, and_assoc]

theorem decodeJump_eq_ok {w q : Int} {make : Mode → Mode → Instr} {i : Instr} :
    decodeJump w q make = .ok i ↔ ∃ m1 m2,
      (m1.digit = digit q 0 ∧ m2.digit = digit q 1) ∧ q.tdiv (10 ^ 2) = 0 ∧ make m1 m2 = i := by
  simp [decodeJump, bind_eq_ok, modeAt_eq_ok, noExcessDigits_eq_ok, and_assoc]

theorem decodeOneSource_eq_ok {w q : Int} {make : Mode → Instr} {i : Instr} :
    decodeOneSource w q make = .ok i ↔ ∃ m1, m1.digit = digit q 0 ∧ q.tdiv (10 ^ 1) = 0 ∧ make m1 = i := by
  simp [decodeOneSource, bind_eq_ok, modeAt_eq_ok, noExcessDigits_eq_ok]

theorem decodeOneDestination_eq_ok {w q : Int} {make : Mode → Instr} {i : Instr} :
    decodeOneDestination w q make = .ok i ↔ ∃ m1,
      m1.digit = digit q 0 ∧ q.tdiv (10 ^ 1) = 0 ∧ m1.writable = true ∧ make m1 = i := by
  simp [decodeOneDestination, bind_eq_ok, modeAt_eq_ok, noExcessDigits_eq_ok, destinationWritable_eq_ok]

theorem decodeNullary_eq_ok {w q : Int} {i j : Instr} :
    decodeNullary w q i = .ok j ↔ q.tdiv (10 ^ 0) = 0 ∧ i = j := by
  simp [decodeNullary, bind_eq_ok, noExcessDigits_eq_ok]

/-! ### The opcode of a decoded word, and what a fetch depends on -/

/-- Each tag's format makes an instruction of that tag. -/
theorem tag_of_decodeFields {t : Tag} {w q : Int} {i : Instr} (h : decodeFields t w q = .ok i) : i.tag = t := by
  cases t with
  | add | multiply | lessThan | equals =>
    obtain ⟨m1, m2, m3, -, -, -, rfl⟩ := decodeWriter_eq_ok.1 h; rfl
  | jumpIfTrue | jumpIfFalse => obtain ⟨m1, m2, -, -, rfl⟩ := decodeJump_eq_ok.1 h; rfl
  | output | adjustRelativeBase => obtain ⟨m1, -, -, rfl⟩ := decodeOneSource_eq_ok.1 h; rfl
  | input => obtain ⟨m1, -, -, -, rfl⟩ := decodeOneDestination_eq_ok.1 h; rfl
  | halt => obtain ⟨-, rfl⟩ := decodeNullary_eq_ok.1 h; rfl

theorem opcode_of_decode {w : Word} {i : Instr} (h : decode w = .ok i) : i.tag.opcode = w.toInt.tmod 100 := by
  obtain ⟨-, t, ht, hfields⟩ := decodeInt_eq_ok.1 h
  rw [tag_of_decodeFields hfields, ht]

/-- Two Running engines with equal words at their valid `ip`s find the same there: the decoder's answer for the word. -/
theorem fetch_congr {s t : State} (hs : Running s) (ht : Running t) (his : s.ip ≤ Config.amax) (hit : t.ip ≤ Config.amax)
    (hw : s.memRead s.ip = t.memRead t.ip) : fetch s = fetch t := by
  cases hd : decode (s.memRead s.ip) with
  | ok i => rw [fetch_eq_run.2 ⟨hs, his, hd⟩, fetch_eq_run.2 ⟨ht, hit, hw ▸ hd⟩]
  | error r => rw [fetch_eq_raise.2 ⟨hs, .inr ⟨his, hd⟩⟩, fetch_eq_raise.2 ⟨ht, .inr ⟨hit, hw ▸ hd⟩⟩]

/-- Settles O5: the decoded tag is the one the word's opcode field names, and a fetch is the decoder's answer for the word. -/
theorem decodedOpcodeIsWordModHundred : Obligations.DecodedOpcodeIsWordModHundred :=
  ⟨fun _ _ => opcode_of_decode, fun _ _ => fetch_congr⟩

/-! ### The operand counts -/

theorem tag_mem_all (t : Tag) : t ∈ Tag.all := by
  cases t <;> decide

theorem modes_length (i : Instr) : i.modes.length = i.tag.arity := by
  cases i <;> rfl

/-- Settles O7: the rows are the tables' values, the sum is `Tag.arity`'s own definition, and each constructor has its modes. -/
theorem arityTableIsTheSpecs : Obligations.ArityTableIsTheSpecs :=
  ⟨by decide, fun t => ⟨tag_mem_all t, rfl⟩, modes_length⟩

end Sys2Proof.Proofs
end

section
/-! PROOFS. The instruction pointer (spec/40_engine.md R91, R97): where each operand shape leaves it when no fault is raised, that
only Input and Output wait, and the fault one past the last cell. -/

namespace Sys2Proof.Proofs

open Sys2Proof.Machine Sys2Proof.Claims Sys2Proof.Laws

/-! ### Only the ports make an instruction wait -/

theorem resolveDst_ne_wait (s : State) (k : Nat) (m : Mode) : resolveDst s k m ≠ .error .wait := by
  intro h
  cases m with
  | position | relative =>
    obtain ⟨v, -, he⟩ := (resolveDst_eq_error rfl).1 h
    cases he
  | immediate => simp [resolveDst_immediate] at h

theorem resolveWriter_ne_wait (s : State) (m1 m2 m3 : Mode) : resolveWriter s m1 m2 m3 ≠ .error .wait := by
  simp [resolveWriter, bind_eq_error, extentCheck_eq_error, resolveSrc_eq_error, resolveDst_ne_wait]

theorem checked_ne_wait (v : Int) : checked v ≠ .error .wait := by simp [checked_eq_error]

/-- An instruction that uses a port and leaves the state as it was has waited: the step has no label (R30, R99). -/
theorem label_eq_none_of_unchanged {s : State} {i : Instr} (hf : fetch s = .run i) (hp : usesPort i = true)
    (hs : nextState s = s) : label s = none := by
  have hr : Running s := running_of_run hf
  have hw : waits s = true := by simp [waits, hf, hp, hs, hr.1]
  simp [label, hs, status_eq_running.2 hr, hw]

/-! ### Where each operand shape leaves `ip` -/

/-- From `s` to `t`, `ip` advanced over an instruction word and `n` parameters that are all valid cells. -/
def Advances (s t : State) (n : Nat) : Prop := t.ip = s.ip + 1 + n ∧ t.ip ≤ Config.amax + 1

theorem advances_of_extent {s t : State} {n : Nat} (h : Extent s n) (ht : t.ip = s.ip + 1 + n) : Advances s t n := by
  unfold Extent at h
  exact ⟨ht, by omega⟩

/-- A jump under the condition `taken` is taken, with the valid target `a`. -/
def JumpsTo (taken : Int → Bool) (m1 m2 : Mode) (s : State) (a : Nat) : Prop :=
  ∃ c, SourceIs s m1 1 c ∧ taken c = true ∧ SourceIs s m2 2 a

theorem execBinary_advances {compute : Int → Int → Except Stop Word} {m1 m2 m3 : Mode} {s t : State}
    (hc : ∀ x y, compute x y ≠ .error .wait) (h : execBinary compute m1 m2 m3 s = .next t) (hf : t.fault = none) :
    Advances s t 3 := by
  obtain ⟨x, y, d, r, hres, -, rfl⟩ | ⟨r, -, rfl⟩ | ⟨hw | ⟨x, y, d, -, hw⟩, -⟩ := execBinary_eq_next.1 h
  · exact advances_of_extent (resolveWriter_eq_ok.1 hres).1 rfl
  · simp at hf
  · exact absurd hw (resolveWriter_ne_wait s m1 m2 m3)
  · exact absurd hw (hc _ _)

theorem execInput_advances {m1 : Mode} {s t : State} (h : execInput m1 s = .next t) (hf : t.fault = none) :
    t = s ∨ Advances s t 1 := by
  obtain ⟨d, v, rest, hres, -, rfl⟩ | ⟨r, -, rfl⟩ | ⟨-, rfl⟩ := execInput_eq_next.1 h
  · exact .inr (advances_of_extent (resolveOneDst_eq_ok.1 hres).1 rfl)
  · simp at hf
  · exact .inl rfl

theorem execOutput_advances {m1 : Mode} {s t : State} (h : execOutput m1 s = .next t) (hf : t.fault = none) :
    t = s ∨ Advances s t 1 := by
  obtain ⟨v, hres, -, rfl⟩ | ⟨r, -, rfl⟩ | ⟨-, rfl⟩ := execOutput_eq_next.1 h
  · exact .inr (advances_of_extent (resolveOne_eq_ok.1 hres).1 rfl)
  · simp at hf
  · exact .inl rfl

theorem execAdjustRelativeBase_advances {m1 : Mode} {s t : State} (h : execAdjustRelativeBase m1 s = .next t)
    (hf : t.fault = none) : Advances s t 1 := by
  obtain ⟨x, r, hres, -, rfl⟩ | ⟨r, -, rfl⟩ | ⟨hw, -⟩ := execAdjustRelativeBase_eq_next.1 h
  · exact advances_of_extent (resolveOne_eq_ok.1 hres).1 rfl
  · simp at hf
  · simp [resolveOne_eq_error] at hw

/-- A jump goes to its target when its condition holds; otherwise it has no target it is taken to, and it advances. -/
theorem execJump_ip {taken : Int → Bool} {m1 m2 : Mode} {s t : State} (h : execJump taken m1 m2 s = .next t)
    (hf : t.fault = none) :
    (∃ a, JumpsTo taken m1 m2 s a ∧ t.ip = a) ∨ ((∀ a, ¬ JumpsTo taken m1 m2 s a) ∧ Advances s t 2) := by
  obtain ⟨c, v, hres, ht⟩ | ⟨r, -, rfl⟩ | ⟨hw, -⟩ := execJump_eq_next.1 h
  · obtain ⟨hext, hcond, htarget⟩ := resolveTwo_eq_ok.1 hres
    split at ht
    next htaken =>
      obtain ⟨a, ha, rfl⟩ := ht
      exact .inl ⟨a, ⟨_, hcond, htaken, (toAddr_eq_ok.1 ha).1 ▸ htarget⟩, rfl⟩
    next hnot =>
      subst ht
      refine .inr ⟨fun a ⟨c', hc', htaken, _⟩ => ?_, advances_of_extent hext rfl⟩
      exact hnot (sourceIs_unique hc' hcond ▸ htaken)
  · simp at hf
  · simp [resolveTwo_eq_error] at hw

/-! ### Every instruction -/

theorem takenJump_jumpIfTrue {m1 m2 : Mode} {s : State} {a : Nat} :
    TakenJump s (.jumpIfTrue m1 m2) a ↔ JumpsTo conditionTrue m1 m2 s a := by
  simp [TakenJump, JumpsTo, conditionTrue]

theorem takenJump_jumpIfFalse {m1 m2 : Mode} {s : State} {a : Nat} :
    TakenJump s (.jumpIfFalse m1 m2) a ↔ JumpsTo conditionFalse m1 m2 s a := by
  simp [TakenJump, JumpsTo, conditionFalse]

theorem tag_of_takenJump {s : State} {i : Instr} {a : Nat} (h : TakenJump s i a) :
    i.tag = .jumpIfTrue ∨ i.tag = .jumpIfFalse := by
  obtain ⟨m1, m2, c, rfl, -⟩ | ⟨m1, m2, rfl, -⟩ := h
  · exact .inl rfl
  · exact .inr rfl

/-- What R97 allows `ip` to do from `s` to `t` when the instruction `i` retires. -/
def MovesIp (i : Instr) (s t : State) : Prop :=
  (i = .halt ∧ t.ip = s.ip) ∨ (∃ a, TakenJump s i a ∧ t.ip = a) ∨
    (i ≠ .halt ∧ (∀ a, ¬ TakenJump s i a) ∧ Advances s t i.tag.arity)

/-- An instruction that is no jump and no Halt moves `ip` by its width. -/
theorem movesIp_of_advances {i : Instr} {s t : State} (hh : i ≠ .halt) (ht : i.tag ≠ .jumpIfTrue)
    (hn : i.tag ≠ .jumpIfFalse) (h : Advances s t i.tag.arity) : MovesIp i s t :=
  .inr (.inr ⟨hh, fun _ hj => (tag_of_takenJump hj).elim ht hn, h⟩)

/-- An instruction that raises no fault moves `ip` as R97 says, or it uses a port and waits. -/
theorem exec_movesIp {i : Instr} {s t : State} (h : exec i s = .next t) (hf : t.fault = none) :
    (usesPort i = true ∧ t = s) ∨ MovesIp i s t := by
  cases i with
  | add | multiply =>
    simp only [exec, execAdd, execMultiply] at h
    exact .inr (movesIp_of_advances nofun nofun nofun (execBinary_advances (fun _ _ => checked_ne_wait _) h hf))
  | lessThan | equals =>
    simp only [exec, execLessThan, execEquals] at h
    exact .inr (movesIp_of_advances nofun nofun nofun (execBinary_advances (by simp) h hf))
  | input => exact (execInput_advances h hf).imp (⟨rfl, ·⟩) (movesIp_of_advances nofun nofun nofun)
  | output => exact (execOutput_advances h hf).imp (⟨rfl, ·⟩) (movesIp_of_advances nofun nofun nofun)
  | adjustRelativeBase =>
    exact .inr (movesIp_of_advances nofun nofun nofun (execAdjustRelativeBase_advances h hf))
  | jumpIfTrue =>
    simp only [MovesIp, takenJump_jumpIfTrue]
    exact .inr (.inr ((execJump_ip h hf).imp_right (⟨nofun, ·⟩)))
  | jumpIfFalse =>
    simp only [MovesIp, takenJump_jumpIfFalse]
    exact .inr (.inr ((execJump_ip h hf).imp_right (⟨nofun, ·⟩)))
  | halt => cases h; exact .inr (.inl ⟨rfl, s.setHalted_ip⟩)

/-! ### The step -/

theorem takeFault_eq_faulted (s : State) (kind : FaultKind) (v : Int) (k : Nat) :
    s.takeFault ⟨kind, v, k⟩ = faulted s kind v k := rfl

theorem step_of_raise {s : State} {r : Raise} (h : fetch s = .raise r) : step s = .next (s.takeFault r) := by
  simp [step, h]

/-- The fetch range (R91): a Running engine above the last cell faults at its `ip`. -/
theorem step_of_ip_above_amax {s : State} (hr : Running s) (h : Config.amax < s.ip) :
    step s = .next (faulted s .invalidInstructionPointer s.ip 0) := by
  rw [step_of_raise (fetch_eq_raise.2 ⟨hr, .inl ⟨h, rfl⟩⟩), takeFault_eq_faulted]

/-- Settles O46: the instruction that ran moved `ip` as R97 says, since a wait has no label; above the last cell the fetch
faults. -/
theorem ipMovesByWidthOrTakenJump : Obligations.IpMovesByWidthOrTakenJump := by
  refine ⟨fun s t i hi hs hf hl => ?_, fun s hr hip => ?_⟩
  · obtain ⟨hp, ht⟩ | hmoves := exec_movesIp ((step_of_run hi).symm.trans hs) hf
    · exact absurd (label_eq_none_of_unchanged hi hp ((step_eq_next_iff.1 hs).trans ht)) hl
    · exact hmoves
  · have hstep := step_of_ip_above_amax hr (by omega)
    rwa [hip, Nat.cast_add_one] at hstep

end Sys2Proof.Proofs
end

section
/-! PROOFS. The ports (spec/42_io.md R122, R126): the one transfer a step can make, its label, and that a run takes the offered
words in order. -/

namespace Sys2Proof.Proofs

open Sys2Proof.Machine Sys2Proof.Claims Sys2Proof.Laws

/-! ### What each instruction does to the ports -/

/-- From `s`, an Input of mode `m` takes the first offered word `v` into cell `d` and retires as `t`, leaving `rest` (R121). -/
def TakesWord (s t : State) (m : Mode) (d : Nat) (v : Word) (rest : List Word) : Prop :=
  DestinationIs s m 1 d ∧ s.offered = v :: rest ∧
    t = { s with mem := s.mem.write d v, ip := s.ip + 2, offered := rest, trace := s.trace ++ [.taken v] }

/-- From `s`, an Output of mode `m` gives its operand `v` to the host and retires as `t` (R125). -/
def GivesWord (s t : State) (m : Mode) (v : Word) : Prop :=
  SourceIs s m 1 v.toInt ∧ s.sinkReady = true ∧ t = { s with ip := s.ip + 2, trace := s.trace ++ [.given v] }

theorem samePorts_refl (s : State) : SamePorts s s := ⟨rfl, rfl, rfl⟩

theorem samePorts_takeFault (s : State) (r : Raise) : SamePorts s (s.takeFault r) := ⟨rfl, rfl, rfl⟩

theorem execBinary_samePorts {compute : Int → Int → Except Stop Word} {m1 m2 m3 : Mode} {s t : State}
    (h : execBinary compute m1 m2 m3 s = .next t) : SamePorts s t := by
  obtain ⟨x, y, d, r, -, -, rfl⟩ | ⟨r, -, rfl⟩ | ⟨-, rfl⟩ := execBinary_eq_next.1 h
  · exact ⟨rfl, rfl, rfl⟩
  · exact samePorts_takeFault s r
  · exact samePorts_refl _

theorem execJump_samePorts {taken : Int → Bool} {m1 m2 : Mode} {s t : State} (h : execJump taken m1 m2 s = .next t) :
    SamePorts s t := by
  obtain ⟨c, v, -, ht⟩ | ⟨r, -, rfl⟩ | ⟨-, rfl⟩ := execJump_eq_next.1 h
  · split at ht
    · obtain ⟨a, -, rfl⟩ := ht; exact ⟨rfl, rfl, rfl⟩
    · subst ht; exact ⟨rfl, rfl, rfl⟩
  · exact samePorts_takeFault s r
  · exact samePorts_refl _

theorem execAdjustRelativeBase_samePorts {m1 : Mode} {s t : State} (h : execAdjustRelativeBase m1 s = .next t) :
    SamePorts s t := by
  obtain ⟨x, r, -, -, rfl⟩ | ⟨r, -, rfl⟩ | ⟨-, rfl⟩ := execAdjustRelativeBase_eq_next.1 h
  · exact ⟨rfl, rfl, rfl⟩
  · exact samePorts_takeFault s r
  · exact samePorts_refl _

theorem execInput_ports {m : Mode} {s t : State} (h : execInput m s = .next t) :
    SamePorts s t ∨ ∃ d v rest, TakesWord s t m d v rest := by
  obtain ⟨d, v, rest, hres, hoff, ht⟩ | ⟨r, -, rfl⟩ | ⟨-, rfl⟩ := execInput_eq_next.1 h
  · exact .inr ⟨d, v, rest, (resolveOneDst_eq_ok.1 hres).2, hoff, ht⟩
  · exact .inl (samePorts_takeFault s r)
  · exact .inl (samePorts_refl _)

theorem execOutput_ports {m : Mode} {s t : State} (h : execOutput m s = .next t) :
    SamePorts s t ∨ ∃ v, GivesWord s t m v := by
  obtain ⟨v, hres, hready, ht⟩ | ⟨r, -, rfl⟩ | ⟨-, rfl⟩ := execOutput_eq_next.1 h
  · exact .inr ⟨v, (resolveOne_eq_ok.1 hres).2, hready, ht⟩
  · exact .inl (samePorts_takeFault s r)
  · exact .inl (samePorts_refl _)

/-- An instruction leaves the ports alone, or it is an Input that takes a word or an Output that gives one. -/
theorem exec_ports {i : Instr} {s t : State} (h : exec i s = .next t) :
    SamePorts s t ∨ (∃ m d v rest, i = .input m ∧ TakesWord s t m d v rest) ∨ ∃ m v, i = .output m ∧ GivesWord s t m v := by
  cases i with
  | add | multiply | lessThan | equals =>
    simp only [exec, execAdd, execMultiply, execLessThan, execEquals] at h
    exact .inl (execBinary_samePorts h)
  | jumpIfTrue | jumpIfFalse => exact .inl (execJump_samePorts h)
  | adjustRelativeBase => exact .inl (execAdjustRelativeBase_samePorts h)
  | halt => cases h; exact .inl ⟨rfl, rfl, rfl⟩
  | input m => exact (execInput_ports h).imp_right fun ⟨d, v, rest, ht⟩ => .inl ⟨m, d, v, rest, rfl, ht⟩
  | output m => exact (execOutput_ports h).imp_right fun ⟨v, ht⟩ => .inr ⟨m, v, rfl, ht⟩

/-- Everything a step can do to the ports. -/
theorem step_ports {s t : State} (h : step s = .next t) :
    SamePorts s t ∨ (∃ m d v rest, fetch s = .run (.input m) ∧ TakesWord s t m d v rest) ∨
      ∃ m v, fetch s = .run (.output m) ∧ GivesWord s t m v := by
  obtain ⟨-, rfl⟩ | ⟨r, -, rfl⟩ | ⟨i, hf, he⟩ := step_cases h
  · exact .inl (samePorts_refl _)
  · exact .inl (samePorts_takeFault s r)
  · obtain hsame | ⟨m, d, v, rest, rfl, ht⟩ | ⟨m, v, rfl, hg⟩ := exec_ports he
    · exact .inl hsame
    · exact .inr (.inl ⟨m, d, v, rest, hf, ht⟩)
    · exact .inr (.inr ⟨m, v, hf, hg⟩)

/-! ### The label of a transfer (R99) -/

theorem label_of_transfer {s : State} {e : PortEvent} (hs : Running s) (ht : Running (nextState s))
    (htrace : (nextState s).trace = s.trace ++ [e]) : label s = some e.label := by
  simp [label, status_eq_running.2 hs, status_eq_running.2 ht, htrace]

/-- A step that records no transfer does not have a transfer's label. -/
theorem label_ne_of_same_trace {s : State} (h : (nextState s).trace = s.trace) (e : PortEvent) : label s ≠ some e.label := by
  cases hs : s.status with
  | halted | faulted => simp [label, hs]
  | running =>
    cases hn : (nextState s).status with
    | halted | faulted => cases e <;> simp [label, hs, hn, PortEvent.label]
    | running => cases e <;> simp [label, hs, hn, h, PortEvent.label]

theorem label_of_takesWord {s t : State} {m : Mode} {d : Nat} {v : Word} {rest : List Word} (hstep : step s = .next t)
    (hr : Running s) (h : TakesWord s t m d v rest) : label s = some (.input v) := by
  obtain ⟨-, -, rfl⟩ := h
  have hn := step_eq_next_iff.1 hstep
  exact label_of_transfer (e := .taken v) hr (hn ▸ hr) (hn ▸ rfl)

theorem label_of_givesWord {s t : State} {m : Mode} {v : Word} (hstep : step s = .next t) (hr : Running s)
    (h : GivesWord s t m v) : label s = some (.output v) := by
  obtain ⟨-, -, rfl⟩ := h
  have hn := step_eq_next_iff.1 hstep
  exact label_of_transfer (e := .given v) hr (hn ▸ hr) (hn ▸ rfl)

/-- Settles O47: a step leaves the ports alone, takes a word or gives one, and either transfer is seen in its label. -/
theorem transfersArePartOfInputAndOutputSteps : Obligations.TransfersArePartOfInputAndOutputSteps := by
  intro s t hstep
  obtain hsame | ⟨m, d, v, rest, hf, ht⟩ | ⟨m, v, hf, hg⟩ := step_ports hstep
  · exact ⟨fun _ => hsame, fun hne => absurd hsame.2.2 hne⟩
  · have hl := label_of_takesWord hstep (running_of_run hf) ht
    obtain ⟨hd, hoff, rfl⟩ := ht
    exact ⟨fun h => by simp at h, fun _ => .inl ⟨m, d, v, rest, hf, hd, hoff, hl, rfl⟩⟩
  · have hl := label_of_givesWord hstep (running_of_run hf) hg
    obtain ⟨hv, hready, rfl⟩ := hg
    exact ⟨fun h => by simp at h, fun _ => .inr ⟨m, v, hf, hv, hready, hl, rfl⟩⟩

/-! ### The order of the words taken -/

@[simp] theorem takenWords_append_taken (tr : List PortEvent) (v : Word) :
    takenWords (tr ++ [.taken v]) = takenWords tr ++ [v] := by simp [takenWords]

@[simp] theorem takenWords_append_given (tr : List PortEvent) (v : Word) :
    takenWords (tr ++ [.given v]) = takenWords tr := by simp [takenWords]

/-- A step keeps the words taken followed by the words on offer: it moves at most the first offered word over. -/
theorem step_keeps_input_sequence {s t : State} (h : step s = .next t) :
    takenWords t.trace ++ t.offered = takenWords s.trace ++ s.offered := by
  obtain ⟨hoff, -, htrace⟩ | ⟨m, d, v, rest, -, -, hoff, rfl⟩ | ⟨m, v, -, -, -, rfl⟩ := step_ports h
  · rw [hoff, htrace]
  · simp [hoff]
  · simp

theorem runSteps_keeps_input_sequence (k : Nat) (s : State) :
    takenWords (runSteps k s).trace ++ (runSteps k s).offered = takenWords s.trace ++ s.offered := by
  induction k generalizing s with
  | zero => rfl
  | succ k ih => exact (ih (nextState s)).trans (step_keeps_input_sequence (step_eq_next_iff.2 rfl))

/-- The word in an Input's label is the first one on offer. -/
theorem offered_of_label_input {s : State} {v : Word} (h : label s = some (.input v)) : ∃ rest, s.offered = v :: rest := by
  have hstep : step s = .next (nextState s) := step_eq_next_iff.2 rfl
  obtain ⟨-, -, htrace⟩ | ⟨m, d, u, rest, hf, ht⟩ | ⟨m, u, hf, hg⟩ := step_ports hstep
  · exact absurd h (label_ne_of_same_trace htrace (.taken v))
  · rw [label_of_takesWord hstep (running_of_run hf) ht] at h
    cases h
    exact ⟨rest, ht.2.1⟩
  · rw [label_of_givesWord hstep (running_of_run hf) hg] at h
    cases h

/-- Settles O48: every step keeps the one list, so the first word on offer stands in it just after the words taken. -/
theorem inputsAreTakenInOrder : Obligations.InputsAreTakenInOrder := by
  refine fun s k => ⟨runSteps_keeps_input_sequence k s, fun hnil v hl => ?_⟩
  obtain ⟨rest, hoff⟩ := offered_of_label_input hl
  have hseq : takenWords (runSteps k s).trace ++ v :: rest = s.offered := by
    rw [← hoff, runSteps_keeps_input_sequence, hnil]; rfl
  simp [← hseq]

end Sys2Proof.Proofs
end

section
/-! PROOFS. The engine never reads the trace (spec/42_io.md R123): an instruction does the same from a state with another trace,
and adds the same transfers to it. -/

namespace Sys2Proof.Proofs

open Sys2Proof.Machine Sys2Proof.Claims Sys2Proof.Laws

/-- The state with `h` for the transfers made so far. -/
def withTrace (s : State) (h : List PortEvent) : State := { s with trace := h }

@[simp] theorem withTrace_trace (s : State) (h : List PortEvent) : (withTrace s h).trace = h := rfl
@[simp] theorem withTrace_status (s : State) (h : List PortEvent) : (withTrace s h).status = s.status := rfl
@[simp] theorem withTrace_fault (s : State) (h : List PortEvent) : (withTrace s h).fault = s.fault := rfl
@[simp] theorem fetch_withTrace (s : State) (h : List PortEvent) : fetch (withTrace s h) = fetch s := rfl

/-- `f` adds transfers to the trace without reading it: with any other trace it makes the same change and the same transfers. -/
def OnlyExtendsTrace (f : State → Host.Outcome State Fault Refusal) : Prop :=
  ∀ (s t : State) (h : List PortEvent), f s = .next t →
    ∃ new, t.trace = s.trace ++ new ∧ f (withTrace s h) = .next (withTrace t (h ++ new))

/-- The case of `OnlyExtendsTrace` in which no transfer is made. -/
theorem extends_by_nothing {f : State → Host.Outcome State Fault Refusal} {s t : State} {h : List PortEvent}
    (ht : t.trace = s.trace) (hf : f (withTrace s h) = .next (withTrace t h)) :
    ∃ new, t.trace = s.trace ++ new ∧ f (withTrace s h) = .next (withTrace t (h ++ new)) :=
  ⟨[], by rw [ht, List.append_nil], by rw [hf, List.append_nil]⟩

theorem execBinary_onlyExtendsTrace (compute : Int → Int → Except Stop Word) (m1 m2 m3 : Mode) :
    OnlyExtendsTrace (execBinary compute m1 m2 m3) := by
  intro s t h he
  refine extends_by_nothing (execBinary_samePorts he).2.2 (execBinary_eq_next.2 ?_)
  obtain ⟨x, y, d, r, hres, hc, rfl⟩ | ⟨r, hres, rfl⟩ | ⟨hres, rfl⟩ := execBinary_eq_next.1 he
  · exact .inl ⟨x, y, d, r, hres, hc, rfl⟩
  · exact .inr (.inl ⟨r, hres, rfl⟩)
  · exact .inr (.inr ⟨hres, rfl⟩)

theorem execJump_onlyExtendsTrace (taken : Int → Bool) (m1 m2 : Mode) : OnlyExtendsTrace (execJump taken m1 m2) := by
  intro s t h he
  refine extends_by_nothing (execJump_samePorts he).2.2 (execJump_eq_next.2 ?_)
  obtain ⟨c, v, hres, ht⟩ | ⟨r, hres, rfl⟩ | ⟨hres, rfl⟩ := execJump_eq_next.1 he
  · refine .inl ⟨c, v, hres, ?_⟩
    split at ht
    next hc => obtain ⟨a, ha, rfl⟩ := ht; rw [if_pos hc]; exact ⟨a, ha, rfl⟩
    next hc => subst ht; rw [if_neg hc]; rfl
  · exact .inr (.inl ⟨r, hres, rfl⟩)
  · exact .inr (.inr ⟨hres, rfl⟩)

theorem execAdjustRelativeBase_onlyExtendsTrace (m : Mode) : OnlyExtendsTrace (execAdjustRelativeBase m) := by
  intro s t h he
  refine extends_by_nothing (execAdjustRelativeBase_samePorts he).2.2 (execAdjustRelativeBase_eq_next.2 ?_)
  obtain ⟨x, r, hres, hc, rfl⟩ | ⟨r, hres, rfl⟩ | ⟨hres, rfl⟩ := execAdjustRelativeBase_eq_next.1 he
  · exact .inl ⟨x, r, hres, hc, rfl⟩
  · exact .inr (.inl ⟨r, hres, rfl⟩)
  · exact .inr (.inr ⟨hres, rfl⟩)

theorem execInput_onlyExtendsTrace (m : Mode) : OnlyExtendsTrace (execInput m) := by
  intro s t h he
  obtain ⟨d, v, rest, hres, hoff, rfl⟩ | ⟨r, hres, rfl⟩ | ⟨hres, rfl⟩ := execInput_eq_next.1 he
  · exact ⟨[.taken v], rfl, execInput_eq_next.2 (.inl ⟨d, v, rest, hres, hoff, rfl⟩)⟩
  · exact extends_by_nothing rfl (execInput_eq_next.2 (.inr (.inl ⟨r, hres, rfl⟩)))
  · exact extends_by_nothing rfl (execInput_eq_next.2 (.inr (.inr ⟨hres, rfl⟩)))

theorem execOutput_onlyExtendsTrace (m : Mode) : OnlyExtendsTrace (execOutput m) := by
  intro s t h he
  obtain ⟨v, hres, hready, rfl⟩ | ⟨r, hres, rfl⟩ | ⟨hres, rfl⟩ := execOutput_eq_next.1 he
  · exact ⟨[.given v], rfl, execOutput_eq_next.2 (.inl ⟨v, hres, hready, rfl⟩)⟩
  · exact extends_by_nothing rfl (execOutput_eq_next.2 (.inr (.inl ⟨r, hres, rfl⟩)))
  · exact extends_by_nothing rfl (execOutput_eq_next.2 (.inr (.inr ⟨hres, rfl⟩)))

theorem exec_onlyExtendsTrace (i : Instr) : OnlyExtendsTrace (exec i) := by
  cases i with
  | add => exact execBinary_onlyExtendsTrace (fun x y => checked (x + y)) _ _ _
  | multiply => exact execBinary_onlyExtendsTrace (fun x y => checked (x * y)) _ _ _
  | lessThan => exact execBinary_onlyExtendsTrace (fun x y => .ok (lessThanWord x y)) _ _ _
  | equals => exact execBinary_onlyExtendsTrace (fun x y => .ok (equalsWord x y)) _ _ _
  | jumpIfTrue | jumpIfFalse => exact execJump_onlyExtendsTrace _ _ _
  | adjustRelativeBase => exact execAdjustRelativeBase_onlyExtendsTrace _
  | input => exact execInput_onlyExtendsTrace _
  | output => exact execOutput_onlyExtendsTrace _
  | halt => intro s t h he; cases he; exact extends_by_nothing rfl rfl

theorem step_onlyExtendsTrace : OnlyExtendsTrace step := by
  intro s t h hs
  obtain ⟨hr, rfl⟩ | ⟨r, hf, rfl⟩ | ⟨i, hf, he⟩ := step_cases hs
  · exact extends_by_nothing rfl (step_of_not_running hr)
  · exact extends_by_nothing rfl (step_of_raise ((fetch_withTrace s h).trans hf))
  · obtain ⟨new, ht, he'⟩ := exec_onlyExtendsTrace i s t h he
    exact ⟨new, ht, (step_of_run ((fetch_withTrace s h).trans hf)).trans he'⟩

/-- A step's label depends on the transfers it adds, and not on those before it. -/
theorem label_withTrace (s : State) (h : List PortEvent) : label (withTrace s h) = label s := by
  obtain ⟨new, ht, hs⟩ := step_onlyExtendsTrace s (nextState s) h (step_eq_next_iff.2 rfl)
  have hn : nextState (withTrace s h) = withTrace (nextState s) (h ++ new) := step_eq_next_iff.1 hs
  have hw : waits (withTrace s h) = waits s := by simp [waits, hn, ht]
  simp only [label, hn, hw, ht, withTrace_status, withTrace_trace, List.drop_left]

/-- Settles O49: no instruction reads the trace, and the label is read off the transfers the step adds. -/
theorem engineNeverReadsTheTrace : Obligations.EngineNeverReadsTheTrace := by
  intro s t h hs
  obtain ⟨new, ht, hs'⟩ := step_onlyExtendsTrace s t h hs
  exact ⟨new, ht, hs', label_withTrace s h⟩

end Sys2Proof.Proofs
end

section
/-! PROOFS. Taking a fault (spec/60_exceptions.md R183): an instruction and a step either leave the fault status as it was or
enter a fault, which writes the record alone. -/

namespace Sys2Proof.Proofs

open Sys2Proof.Machine Sys2Proof.Claims Sys2Proof.Laws

/-- From `s` to `t`, the fault status stayed as it was, or `t` is `s` with a fault taken and nothing else changed. -/
def KeepsOrTakesFault (s t : State) : Prop := t.fault = s.fault ∨ ∃ r, t = s.takeFault r

/-! ### What each instruction does to the fault status -/

theorem execBinary_keepsOrTakesFault {compute : Int → Int → Except Stop Word} {m1 m2 m3 : Mode} {s t : State}
    (h : execBinary compute m1 m2 m3 s = .next t) : KeepsOrTakesFault s t := by
  obtain ⟨x, y, d, r, -, -, rfl⟩ | ⟨r, -, ht⟩ | ⟨-, rfl⟩ := execBinary_eq_next.1 h
  · exact .inl (by simp)
  · exact .inr ⟨r, ht⟩
  · exact .inl rfl

theorem execJump_keepsOrTakesFault {taken : Int → Bool} {m1 m2 : Mode} {s t : State}
    (h : execJump taken m1 m2 s = .next t) : KeepsOrTakesFault s t := by
  obtain ⟨c, v, -, ht⟩ | ⟨r, -, ht⟩ | ⟨-, rfl⟩ := execJump_eq_next.1 h
  · split at ht
    next => obtain ⟨a, -, rfl⟩ := ht; exact .inl (s.setIp_fault a)
    next => subst ht; exact .inl (s.advance_fault 2)
  · exact .inr ⟨r, ht⟩
  · exact .inl rfl

theorem execInput_keepsOrTakesFault {m : Mode} {s t : State} (h : execInput m s = .next t) : KeepsOrTakesFault s t := by
  obtain ⟨d, v, rest, -, -, rfl⟩ | ⟨r, -, ht⟩ | ⟨-, rfl⟩ := execInput_eq_next.1 h
  · exact .inl rfl
  · exact .inr ⟨r, ht⟩
  · exact .inl rfl

theorem execOutput_keepsOrTakesFault {m : Mode} {s t : State} (h : execOutput m s = .next t) : KeepsOrTakesFault s t := by
  obtain ⟨v, -, -, rfl⟩ | ⟨r, -, ht⟩ | ⟨-, rfl⟩ := execOutput_eq_next.1 h
  · exact .inl rfl
  · exact .inr ⟨r, ht⟩
  · exact .inl rfl

theorem execAdjustRelativeBase_keepsOrTakesFault {m : Mode} {s t : State} (h : execAdjustRelativeBase m s = .next t) :
    KeepsOrTakesFault s t := by
  obtain ⟨x, r, -, -, rfl⟩ | ⟨r, -, ht⟩ | ⟨-, rfl⟩ := execAdjustRelativeBase_eq_next.1 h
  · exact .inl (by simp)
  · exact .inr ⟨r, ht⟩
  · exact .inl rfl

theorem exec_keepsOrTakesFault {i : Instr} {s t : State} (h : exec i s = .next t) : KeepsOrTakesFault s t := by
  cases i with
  | add | multiply | lessThan | equals =>
    simp only [exec, execAdd, execMultiply, execLessThan, execEquals] at h
    exact execBinary_keepsOrTakesFault h
  | jumpIfTrue | jumpIfFalse => exact execJump_keepsOrTakesFault h
  | input => exact execInput_keepsOrTakesFault h
  | output => exact execOutput_keepsOrTakesFault h
  | adjustRelativeBase => exact execAdjustRelativeBase_keepsOrTakesFault h
  | halt => cases h; exact .inl s.setHalted_fault

/-! ### The step -/

theorem step_keepsOrTakesFault {s t : State} (h : step s = .next t) : KeepsOrTakesFault s t := by
  obtain ⟨-, rfl⟩ | ⟨r, -, ht⟩ | ⟨i, -, he⟩ := step_cases h
  · exact .inl rfl
  · exact .inr ⟨r, ht⟩
  · exact exec_keepsOrTakesFault he

theorem status_of_fault {s : State} {r : FaultRecord} (h : s.fault = some r) : s.status = .faulted r := by
  simp [State.status, h]

/-- A step that answers a Faulted state returns its record (R101). -/
theorem stepResult_of_next_fault {s t : State} {r : FaultRecord} (hs : step s = .next t) (hf : t.fault = some r) :
    stepResult s = some (.err r) := by
  simp [stepResult, step_eq_next_iff.1 hs, status_of_fault hf]

/-- Settles O23: a step that does not keep the fault status takes a fault, and the record left is the one `recordOf` makes. -/
theorem faultChangesOnlyTheRecord : Obligations.FaultChangesOnlyTheRecord := by
  intro s t r hnone hs hf
  have hresult : stepResult s = some (.err r) := stepResult_of_next_fault hs hf
  obtain hkept | ⟨q, rfl⟩ := step_keepsOrTakesFault hs
  · rw [hkept, hnone] at hf
    cases hf
  · obtain rfl : s.recordOf q = r := Option.some.inj hf
    exact ⟨rfl, rfl, rfl, hresult⟩

end Sys2Proof.Proofs
end

section
/-! PROOFS. Decoding and encoding (spec/30_encoding.md R61 to R68): the words that decode are exactly the encodings of legal
instructions, and every other word has the one fault that the rules give it. -/

namespace Sys2Proof.Proofs

open Sys2Proof.Machine Sys2Proof.Claims Sys2Proof.Laws

/-! ### Mode digits -/

theorem mode_digit_range (m : Mode) : 0 ≤ m.digit ∧ m.digit ≤ 2 := by
  cases m <;> decide

theorem digit_zero {q : Int} (hq : 0 ≤ q) : digit q 0 = q % 10 := by
  simp [digit, Int.tmod_eq_emod_of_nonneg hq]

theorem tdiv_ten_pow_succ {q : Int} (hq : 0 ≤ q) (k : Nat) : q.tdiv (10 ^ (k + 1)) = (q / 10).tdiv (10 ^ k) := by
  rw [Int.tdiv_eq_ediv_of_nonneg hq, Int.tdiv_eq_ediv_of_nonneg (by omega), pow_succ', Int.ediv_ediv_of_nonneg (by norm_num)]

theorem digit_succ {q : Int} (hq : 0 ≤ q) (k : Nat) : digit q (k + 1) = digit (q / 10) k := by
  rw [digit, digit, tdiv_ten_pow_succ hq]

theorem digit_nonneg {q : Int} (hq : 0 ≤ q) (k : Nat) : 0 ≤ digit q k := by
  induction k generalizing q with
  | zero => rw [digit_zero hq]; omega
  | succ k ih => rw [digit_succ hq]; exact ih (by omega)

/-- The mode digits of a number are those of a list of modes, with no digit above them, exactly when it is their sum (R68). -/
theorem eq_modeDigits_iff {q : Int} (hq : 0 ≤ q) (ms : List Mode) :
    q = modeDigits ms ↔
      ms.map Mode.digit = (List.range ms.length).map (digit q) ∧ q.tdiv (10 ^ ms.length) = 0 := by
  induction ms generalizing q with
  | nil => simp [modeDigits]
  | cons m ms ih =>
    have hq' : 0 ≤ q / 10 := by omega
    have hm := mode_digit_range m
    have hcons : q = modeDigits (m :: ms) ↔ m.digit = q % 10 ∧ q / 10 = modeDigits ms := by
      rw [modeDigits]; omega
    have hshift : digit q ∘ Nat.succ = digit (q / 10) := funext (digit_succ hq)
    simp only [hcons, ih hq', List.length_cons, List.map_cons, List.range_succ_eq_map, List.map_map, hshift,
      List.cons.injEq, digit_zero hq, tdiv_ten_pow_succ hq, and_assoc]

/-! ### A word decodes exactly when it encodes a legal instruction -/

/-- The fields of a word give exactly the legal instruction of the tag whose modes they list (R66). -/
theorem decodeFields_eq_ok {t : Tag} {w q : Int} (hq : 0 ≤ q) {i : Instr} :
    decodeFields t w q = .ok i ↔ i.tag = t ∧ q = modeDigits i.modes ∧ i.wellFormed = true := by
  rw [eq_modeDigits_iff hq]
  constructor
  · intro h
    refine ⟨tag_of_decodeFields h, ?_⟩
    cases t with
    | add | multiply | lessThan | equals =>
      obtain ⟨m1, m2, m3, hd, hx, hm, rfl⟩ := decodeWriter_eq_ok.1 h
      exact ⟨⟨by simp [Instr.modes, List.range_succ, hd], hx⟩, hm⟩
    | jumpIfTrue | jumpIfFalse =>
      obtain ⟨m1, m2, hd, hx, rfl⟩ := decodeJump_eq_ok.1 h
      exact ⟨⟨by simp [Instr.modes, List.range_succ, hd], hx⟩, rfl⟩
    | output | adjustRelativeBase =>
      obtain ⟨m1, hd, hx, rfl⟩ := decodeOneSource_eq_ok.1 h
      exact ⟨⟨by simp [Instr.modes, hd], hx⟩, rfl⟩
    | input =>
      obtain ⟨m1, hd, hx, hm, rfl⟩ := decodeOneDestination_eq_ok.1 h
      exact ⟨⟨by simp [Instr.modes, hd], hx⟩, hm⟩
    | halt =>
      obtain ⟨hx, rfl⟩ := decodeNullary_eq_ok.1 h
      exact ⟨⟨rfl, hx⟩, rfl⟩
  · rintro ⟨rfl, ⟨hd, hx⟩, hm⟩
    cases i with
    | add m1 m2 m3 | multiply m1 m2 m3 | lessThan m1 m2 m3 | equals m1 m2 m3 =>
      exact decodeWriter_eq_ok.2 ⟨m1, m2, m3, by simpa [Instr.modes, List.range_succ] using hd, hx, hm, rfl⟩
    | jumpIfTrue m1 m2 | jumpIfFalse m1 m2 =>
      exact decodeJump_eq_ok.2 ⟨m1, m2, by simpa [Instr.modes, List.range_succ] using hd, hx, rfl⟩
    | output m1 | adjustRelativeBase m1 =>
      exact decodeOneSource_eq_ok.2 ⟨m1, by simpa [Instr.modes] using hd, hx, rfl⟩
    | input m1 => exact decodeOneDestination_eq_ok.2 ⟨m1, by simpa [Instr.modes] using hd, hx, hm, rfl⟩
    | halt => exact decodeNullary_eq_ok.2 ⟨hx, rfl⟩

theorem tag_opcode_range (t : Tag) : 1 ≤ t.opcode ∧ t.opcode ≤ 99 := by
  cases t <;> decide

/-- An integer decodes exactly when it is the integer of a legal instruction's word (R68). -/
theorem decodeInt_eq_ok_iff_encodeInt {v : Int} {i : Instr} :
    decodeInt v = .ok i ↔ i.wellFormed = true ∧ encodeInt i = v := by
  have hop := tag_opcode_range i.tag
  have henc := encodeInt_range i
  rw [decodeInt_eq_ok]
  constructor
  · rintro ⟨hv, t, ht, hf⟩
    rw [Int.tmod_eq_emod_of_nonneg hv] at ht
    rw [Int.tdiv_eq_ediv_of_nonneg hv, decodeFields_eq_ok (by omega)] at hf
    obtain ⟨rfl, hmodes, hwf⟩ := hf
    exact ⟨hwf, by rw [encodeInt]; omega⟩
  · rintro ⟨hwf, rfl⟩
    have hdef : encodeInt i = i.tag.opcode + 100 * modeDigits i.modes := rfl
    refine ⟨by omega, i.tag, ?_, ?_⟩
    · rw [Int.tmod_eq_emod_of_nonneg (by omega)]; omega
    · rw [Int.tdiv_eq_ediv_of_nonneg (by omega), decodeFields_eq_ok (by omega)]
      exact ⟨rfl, by omega, hwf⟩

/-- A word decodes exactly when it is the encoding of a legal instruction (R68). -/
theorem decode_eq_ok_iff_encode {w : Word} {i : Instr} : decode w = .ok i ↔ i.wellFormed = true ∧ encode i = w := by
  rw [decode, decodeInt_eq_ok_iff_encodeInt, ← encode_toInt, BitVec.toInt_inj]

/-- Settles O1: a legal instruction's word decodes to it. -/
theorem decodeInvertsEncode : Obligations.DecodeInvertsEncode :=
  fun _ hwf => decode_eq_ok_iff_encode.2 ⟨hwf, rfl⟩

/-- Settles O2: a word that decodes is the word of the legal instruction it decodes to. -/
theorem decodedWordIsItsEncoding : Obligations.DecodedWordIsItsEncoding :=
  fun _ _ => decode_eq_ok_iff_encode.1

/-! ### The list of legal words (R68) -/

theorem exists_mode_iff {p : Mode → Prop} : (∃ m, p m) ↔ p .position ∨ p .immediate ∨ p .relative := by
  constructor
  · rintro ⟨m, h⟩
    cases m
    · exact .inl h
    · exact .inr (.inl h)
    · exact .inr (.inr h)
  · rintro (h | h | h) <;> exact ⟨_, h⟩

theorem mem_writerWords {op v : Int} :
    v ∈ writerWords op ↔ ∃ a b d : Mode, d.writable = true ∧ op + 100 * modeDigits [a, b, d] = v := by
  simp only [writerWords, List.cons_append, List.nil_append, List.mem_cons, List.not_mem_nil, or_false, exists_mode_iff,
    Mode.writable, modeDigits, Mode.digit, true_and, false_and, false_or, Bool.false_eq_true]
  omega

theorem mem_jumpWords {op v : Int} : v ∈ jumpWords op ↔ ∃ a b : Mode, op + 100 * modeDigits [a, b] = v := by
  simp only [jumpWords, List.mem_cons, List.not_mem_nil, or_false, exists_mode_iff, modeDigits, Mode.digit]
  omega

theorem mem_sourceWords {op v : Int} :
    v ∈ [op, 100 + op, 200 + op] ↔ ∃ a : Mode, op + 100 * modeDigits [a] = v := by
  simp only [List.mem_cons, List.not_mem_nil, or_false, exists_mode_iff, modeDigits, Mode.digit]
  omega

theorem mem_destinationWords {op v : Int} :
    v ∈ [op, 200 + op] ↔ ∃ d : Mode, d.writable = true ∧ op + 100 * modeDigits [d] = v := by
  simp only [List.mem_cons, List.not_mem_nil, or_false, exists_mode_iff, Mode.writable, modeDigits, Mode.digit, true_and,
    false_and, false_or, Bool.false_eq_true]
  omega

theorem exists_instr_iff {p : Instr → Prop} :
    (∃ i, p i) ↔ (∃ a b d, p (.add a b d)) ∨ (∃ a b d, p (.multiply a b d)) ∨ (∃ d, p (.input d)) ∨ (∃ a, p (.output a)) ∨
      (∃ a b, p (.jumpIfTrue a b)) ∨ (∃ a b, p (.jumpIfFalse a b)) ∨ (∃ a b d, p (.lessThan a b d)) ∨
      (∃ a b d, p (.equals a b d)) ∨ (∃ a, p (.adjustRelativeBase a)) ∨ p .halt := by
  constructor
  · rintro ⟨i, h⟩
    cases i <;> grind
  · rintro (⟨a, b, d, h⟩ | ⟨a, b, d, h⟩ | ⟨d, h⟩ | ⟨a, h⟩ | ⟨a, b, h⟩ | ⟨a, b, h⟩ | ⟨a, b, d, h⟩ | ⟨a, b, d, h⟩ | ⟨a, h⟩ | h) <;>
      exact ⟨_, h⟩

/-- The listed words are the words of the legal instructions, opcode by opcode. -/
theorem mem_legalWords {v : Int} : v ∈ legalWords ↔ ∃ i : Instr, i.wellFormed = true ∧ encodeInt i = v := by
  have hinput : v ∈ [3, 203] ↔ _ := mem_destinationWords (op := 3)
  have houtput : v ∈ [4, 104, 204] ↔ _ := mem_sourceWords (op := 4)
  have hadjust : v ∈ [9, 109, 209] ↔ _ := mem_sourceWords (op := 9)
  simp only [legalWords, List.mem_append, or_assoc, mem_writerWords, mem_jumpWords, hinput, houtput, hadjust,
    List.mem_singleton, exists_instr_iff, encodeInt, Instr.tag, Tag.opcode, Instr.modes, Instr.wellFormed, true_and,
    modeDigits, mul_zero, add_zero, eq_comm (b := (99 : Int))]

/-- Settles O3: the words that decode are the encodings of legal instructions, and the list has one of these for each. -/
theorem legalWordsAreTheListedOnes : Obligations.LegalWordsAreTheListedOnes := by
  refine ⟨fun w => ?_, rfl, by decide⟩
  simp only [mem_legalWords, decode, decodeInt_eq_ok_iff_encodeInt]

/-! ### The faults of the decoder (R66) -/

/-- The mode digits of the parameters 1 to `n` all name modes. -/
def LegalDigits (v : Int) (n : Nat) : Prop := ∀ j, 1 ≤ j → j ≤ n → modeDigit v j ≤ 2

theorem legalDigits_zero (v : Int) : LegalDigits v 0 := fun _ _ _ => by omega

theorem legalDigits_succ {v : Int} {n : Nat} : LegalDigits v (n + 1) ↔ LegalDigits v n ∧ modeDigit v (n + 1) ≤ 2 := by
  constructor
  · exact fun h => ⟨fun j h1 h2 => h j h1 (by omega), h _ (by omega) le_rfl⟩
  · rintro ⟨h, hn⟩ j h1 h2
    obtain rfl | hj := Nat.eq_or_lt_of_le h2
    · exact hn
    · exact h j h1 (by omega)

/-- Among the parameters 1 to `n`, the first whose digit names no mode gives the fault `r`. -/
def ModeFault (v : Int) (n : Nat) (r : Raise) : Prop :=
  ∃ k, 1 ≤ k ∧ k ≤ n ∧ 2 < modeDigit v k ∧ LegalDigits v (k - 1) ∧ r = ⟨.invalidMode, v, k⟩

theorem not_modeFault_zero (v : Int) (r : Raise) : ¬ ModeFault v 0 r := by
  rintro ⟨k, h1, h2, -⟩
  omega

theorem modeFault_succ {v : Int} {n : Nat} {r : Raise} :
    ModeFault v (n + 1) r ↔
      ModeFault v n r ∨ (LegalDigits v n ∧ 2 < modeDigit v (n + 1) ∧ r = ⟨.invalidMode, v, n + 1⟩) := by
  constructor
  · rintro ⟨k, h1, h2, hk, hlegal, rfl⟩
    obtain rfl | hlt := Nat.eq_or_lt_of_le h2
    · exact .inr ⟨hlegal, hk, rfl⟩
    · exact .inl ⟨k, h1, by omega, hk, hlegal, rfl⟩
  · rintro (⟨k, h1, h2, h⟩ | ⟨hlegal, hk, rfl⟩)
    · exact ⟨k, h1, by omega, h⟩
    · exact ⟨n + 1, by omega, le_rfl, hk, hlegal, rfl⟩

/-- The fault of a word in a row of arity `n` and destination `dest`: its first bad mode digit, then a digit above the
modes, then an Immediate destination. -/
def FieldFault (v : Int) (n : Nat) (dest : Option Nat) (r : Raise) : Prop :=
  ModeFault v n r ∨
  (LegalDigits v n ∧ (v.tdiv 100).tdiv (10 ^ n) ≠ 0 ∧ r = ⟨.additionalDigits, v, 0⟩) ∨
  (LegalDigits v n ∧ (v.tdiv 100).tdiv (10 ^ n) = 0 ∧
    ∃ k, dest = some k ∧ modeDigit v k = 1 ∧ r = ⟨.immediateWriteDestination, v, k⟩)

theorem decodeFault_iff {v : Int} {r : Raise} :
    DecodeFault v r ↔
      ((v < 0 ∨ ∀ n dest, (v.tmod 100, n, dest) ∉ opcodeTable) ∧ r = ⟨.invalidOpcode, v, 0⟩) ∨
      ∃ n dest, HasRow v n dest ∧ FieldFault v n dest r := by
  have before {k : Nat} : (∀ j, 1 ≤ j → j < k → modeDigit v j ≤ 2) ↔ LegalDigits v (k - 1) :=
    forall_congr' fun j => ⟨fun h h1 h2 => h h1 (by omega), fun h h1 h2 => h h1 (by omega)⟩
  constructor
  · rintro (h | ⟨n, dest, k, hrow, h1, h2, hk, hj⟩ | ⟨n, dest, hrow, hj, hx⟩ | ⟨n, k, hrow, hj, hx, hk⟩)
    · exact .inl ⟨h, rfl⟩
    · exact .inr ⟨n, dest, hrow, .inl ⟨k, h1, h2, hk, before.1 hj, rfl⟩⟩
    · exact .inr ⟨n, dest, hrow, .inr (.inl ⟨hj, hx, rfl⟩)⟩
    · exact .inr ⟨n, some k, hrow, .inr (.inr ⟨hj, hx, k, rfl, hk, rfl⟩)⟩
  · rintro (⟨h, rfl⟩ | ⟨n, dest, hrow, ⟨k, h1, h2, hk, hj, rfl⟩ | ⟨hj, hx, rfl⟩ | ⟨hj, hx, k, rfl, hk, rfl⟩⟩)
    · exact .opcode h
    · exact .mode n dest k hrow h1 h2 hk (before.2 hj)
    · exact .excess n dest hrow hj hx
    · exact .destination n k hrow hj hx hk

section
variable {v : Int} (hv : 0 ≤ v)
include hv

theorem modeDigit_nonneg (k : Nat) : 0 ≤ modeDigit v k := by
  rw [modeDigit, Int.tdiv_eq_ediv_of_nonneg hv]
  exact digit_nonneg (by omega) (k - 1)

theorem modeAt_eq_error_iff {k : Nat} {r : Raise} :
    modeAt v (v.tdiv 100) k = .error r ↔ 2 < modeDigit v k ∧ r = ⟨.invalidMode, v, k⟩ := by
  have hd : digit (v.tdiv 100) (k - 1) = modeDigit v k := rfl
  have h0 := modeDigit_nonneg hv k
  rw [modeAt_eq_error, hd]
  exact and_congr_left fun _ => by omega

theorem exists_modeAt_eq_ok_iff {k : Nat} : (∃ m, modeAt v (v.tdiv 100) k = .ok m) ↔ modeDigit v k ≤ 2 := by
  have hd : digit (v.tdiv 100) (k - 1) = modeDigit v k := rfl
  have h0 := modeDigit_nonneg hv k
  simp only [modeAt_eq_ok, hd, exists_mode_iff, Mode.digit]
  omega

omit hv in
theorem exists_immediate_modeAt_iff {k : Nat} :
    (∃ m, modeAt v (v.tdiv 100) k = .ok m ∧ m.writable = false) ↔ modeDigit v k = 1 := by
  have hd : digit (v.tdiv 100) (k - 1) = modeDigit v k := rfl
  simp only [modeAt_eq_ok, hd, exists_mode_iff, Mode.digit, Mode.writable, Bool.true_eq_false, and_false, and_true,
    or_false, false_or]
  exact eq_comm

/-- A destination's digit names a mode, and the rest of the checks depend on whether that mode is writable. -/
theorem exists_destination_modeAt_iff {k : Nat} {p q r : Prop} :
    (∃ m, modeAt v (v.tdiv 100) k = .ok m ∧ (p ∨ q ∧ m.writable = false ∧ r)) ↔
      (modeDigit v k ≤ 2 ∧ p) ∨ (modeDigit v k = 1 ∧ q ∧ r) := by
  rw [← exists_modeAt_eq_ok_iff hv, ← exists_immediate_modeAt_iff]
  constructor
  · rintro ⟨m, hm, hp | ⟨hq, hw, hr⟩⟩
    · exact .inl ⟨⟨m, hm⟩, hp⟩
    · exact .inr ⟨⟨m, hm, hw⟩, hq, hr⟩
  · rintro (⟨⟨m, hm⟩, hp⟩ | ⟨⟨m, hm, hw⟩, hq, hr⟩)
    · exact ⟨m, hm, .inl hp⟩
    · exact ⟨m, hm, .inr ⟨hq, hw, hr⟩⟩

theorem decodeWriter_eq_error {make : Mode → Mode → Mode → Instr} {r : Raise} :
    decodeWriter v (v.tdiv 100) make = .error r ↔ FieldFault v 3 (some 3) r := by
  have himm : modeDigit v 3 = 1 → modeDigit v 3 ≤ 2 := by omega
  simp only [decodeWriter, bind_eq_error, pure_eq_ok, modeAt_eq_error_iff hv, exists_and_right, exists_modeAt_eq_ok_iff hv,
    noExcessDigits_eq_error, noExcessDigits_eq_ok, destinationWritable_eq_error, exists_destination_modeAt_iff hv,
    reduceCtorEq, and_false, exists_false, or_false, exists_const, FieldFault, modeFault_succ, not_modeFault_zero,
    legalDigits_succ, legalDigits_zero, Option.some.injEq, exists_eq_left', false_or, true_and]
  constructor
  · rintro (h1 | ⟨l1, h2 | ⟨l2, h3 | ⟨l3, hx⟩ | ⟨h3, hx, hr⟩⟩⟩)
    · exact .inl (.inl (.inl h1))
    · exact .inl (.inl (.inr ⟨l1, h2⟩))
    · exact .inl (.inr ⟨⟨l1, l2⟩, h3⟩)
    · exact .inr (.inl ⟨⟨⟨l1, l2⟩, l3⟩, hx⟩)
    · exact .inr (.inr ⟨⟨⟨l1, l2⟩, himm h3⟩, hx, h3, hr⟩)
  · rintro (((h1 | ⟨l1, h2⟩) | ⟨⟨l1, l2⟩, h3⟩) | ⟨⟨⟨l1, l2⟩, l3⟩, hx⟩ | ⟨⟨⟨l1, l2⟩, -⟩, hx, h3, hr⟩)
    · exact .inl h1
    · exact .inr ⟨l1, .inl h2⟩
    · exact .inr ⟨l1, .inr ⟨l2, .inl h3⟩⟩
    · exact .inr ⟨l1, .inr ⟨l2, .inr (.inl ⟨l3, hx⟩)⟩⟩
    · exact .inr ⟨l1, .inr ⟨l2, .inr (.inr ⟨h3, hx, hr⟩)⟩⟩

theorem decodeOneDestination_eq_error {make : Mode → Instr} {r : Raise} :
    decodeOneDestination v (v.tdiv 100) make = .error r ↔ FieldFault v 1 (some 1) r := by
  have himm : modeDigit v 1 = 1 → modeDigit v 1 ≤ 2 := by omega
  simp only [decodeOneDestination, bind_eq_error, pure_eq_ok, modeAt_eq_error_iff hv, exists_and_right,
    noExcessDigits_eq_error, noExcessDigits_eq_ok, destinationWritable_eq_error, exists_destination_modeAt_iff hv,
    reduceCtorEq, and_false, exists_false, or_false, exists_const, FieldFault, modeFault_succ, not_modeFault_zero,
    legalDigits_succ, legalDigits_zero, Option.some.injEq, exists_eq_left']
  tauto

theorem decodeJump_eq_error {make : Mode → Mode → Instr} {r : Raise} :
    decodeJump v (v.tdiv 100) make = .error r ↔ FieldFault v 2 none r := by
  simp only [decodeJump, bind_eq_error, pure_eq_ok, modeAt_eq_error_iff hv, exists_and_right, exists_modeAt_eq_ok_iff hv,
    noExcessDigits_eq_error, reduceCtorEq, and_false, false_and, exists_false, or_false, FieldFault, modeFault_succ,
    not_modeFault_zero, legalDigits_succ, legalDigits_zero]
  tauto

theorem decodeOneSource_eq_error {make : Mode → Instr} {r : Raise} :
    decodeOneSource v (v.tdiv 100) make = .error r ↔ FieldFault v 1 none r := by
  simp only [decodeOneSource, bind_eq_error, pure_eq_ok, modeAt_eq_error_iff hv, exists_and_right,
    exists_modeAt_eq_ok_iff hv, noExcessDigits_eq_error, reduceCtorEq, and_false, false_and, exists_false, or_false,
    FieldFault, modeFault_succ, not_modeFault_zero, legalDigits_succ, legalDigits_zero]
  tauto

omit hv in
theorem decodeNullary_eq_error {i : Instr} {r : Raise} :
    decodeNullary v (v.tdiv 100) i = .error r ↔ FieldFault v 0 none r := by
  simp [decodeNullary, bind_eq_error, noExcessDigits_eq_error, FieldFault, not_modeFault_zero, legalDigits_zero]

/-- The fields of a word fail to decode with exactly the fault of its row (R66). -/
theorem decodeFields_eq_error {t : Tag} {r : Raise} :
    decodeFields t v (v.tdiv 100) = .error r ↔ FieldFault v t.arity t.dest r := by
  cases t with
  | add | multiply | lessThan | equals => exact decodeWriter_eq_error hv
  | jumpIfTrue | jumpIfFalse => exact decodeJump_eq_error hv
  | output | adjustRelativeBase => exact decodeOneSource_eq_error hv
  | input => exact decodeOneDestination_eq_error hv
  | halt => exact decodeNullary_eq_error

end

/-- The rows of the table are the tags, in the same order (R64). -/
theorem opcodeTable_eq_map : opcodeTable = Tag.all.map fun t => (t.opcode, t.arity, t.dest) := rfl

theorem mem_opcodeTable {op : Int} {n : Nat} {dest : Option Nat} :
    (op, n, dest) ∈ opcodeTable ↔ ∃ t : Tag, t.opcode = op ∧ t.arity = n ∧ t.dest = dest := by
  simp only [opcodeTable_eq_map, List.mem_map, tag_mem_all, true_and, Prod.mk.injEq]

/-- The fault of a word by its opcode field: no row, or the fault of its row's fields. -/
theorem decodeInt_eq_error {v : Int} {r : Raise} :
    decodeInt v = .error r ↔
      ((v < 0 ∨ ∀ t : Tag, t.opcode ≠ v.tmod 100) ∧ r = ⟨.invalidOpcode, v, 0⟩) ∨
      (0 ≤ v ∧ ∃ t : Tag, t.opcode = v.tmod 100 ∧ decodeFields t v (v.tdiv 100) = .error r) := by
  unfold decodeInt
  split
  next h => simp [h, h.not_ge, eq_comm]
  next h =>
    simp only [← tagOfOpcode_eq_some, ne_eq, h, false_or, not_lt.1 h, true_and]
    split
    next ht => simp [ht, eq_comm (b := r)]
    next t ht =>
      have hex : ¬ ∀ u : Tag, ¬ t = u := fun hu => hu t rfl
      simp only [ht, hex, false_and, false_or, Option.some.injEq, exists_eq_left']

/-- Settles O4: the decoder's checks are those of the row its opcode field names. -/
theorem decodeFaultsAreTheRulesFaults : Obligations.DecodeFaultsAreTheRulesFaults := by
  intro w r
  rw [decode, decodeInt_eq_error, decodeFault_iff]
  have hrow : (∀ n dest, (w.toInt.tmod 100, n, dest) ∉ opcodeTable) ↔ ∀ t : Tag, t.opcode ≠ w.toInt.tmod 100 := by
    simp only [mem_opcodeTable, not_exists, not_and]
    exact ⟨fun h t ht => h _ _ t ht rfl rfl, fun h _ _ t ht _ _ => h t ht⟩
  rw [hrow]
  refine or_congr_right ⟨?_, ?_⟩
  · rintro ⟨hv, t, ht, hf⟩
    exact ⟨t.arity, t.dest, ⟨hv, mem_opcodeTable.2 ⟨t, ht, rfl, rfl⟩⟩, (decodeFields_eq_error hv).1 hf⟩
  · rintro ⟨n, dest, ⟨hv, hmem⟩, hf⟩
    obtain ⟨t, ht, rfl, rfl⟩ := mem_opcodeTable.1 hmem
    exact ⟨hv, t, ht, (decodeFields_eq_error hv).2 hf⟩

/-- Settles O6: the decoder computes the vectors. -/
theorem wordsOfEveryFamilyDecode : Obligations.WordsOfEveryFamilyDecode := by
  unfold Obligations.WordsOfEveryFamilyDecode
  decide

end Sys2Proof.Proofs
end

section
/-! PROOFS. The first stage of a step (spec/40_engine.md R90, R91): what a Running engine's step does for the word at `ip`, and
for a table word placed there. -/

namespace Sys2Proof.Proofs

open Sys2Proof.Machine Sys2Proof.Claims Sys2Proof.Laws

theorem takeFault_eq_faulted_fields (s : State) (r : Raise) : s.takeFault r = faulted s r.kind r.value r.param := rfl

theorem step_of_decode_ok {s : State} {i : Instr} (hr : Running s) (hip : s.ip ≤ Config.amax)
    (h : decode (s.memRead s.ip) = .ok i) : step s = exec i s :=
  step_of_run (fetch_eq_run.2 ⟨hr, hip, h⟩)

theorem step_of_decode_error {s : State} {r : Raise} (hr : Running s) (hip : s.ip ≤ Config.amax)
    (h : decode (s.memRead s.ip) = .error r) : step s = .next (faulted s r.kind r.value r.param) := by
  rw [step_of_raise (fetch_eq_raise.2 ⟨hr, .inr ⟨hip, h⟩⟩), takeFault_eq_faulted_fields]

/-- Settles O16: the first stage finds the decoded instruction. -/
theorem stepRunsTheDecodedInstruction : Obligations.StepRunsTheDecodedInstruction :=
  fun _ _ => step_of_decode_ok

/-- Settles O18: the first stage raises the decoder's fault. -/
theorem illegalWordFaultsAtDecode : Obligations.IllegalWordFaultsAtDecode :=
  fun _ _ => step_of_decode_error

/-- No row of the opcode table has the opcode field 0. -/
theorem decode_zero : decode 0 = .error ⟨.invalidOpcode, 0, 0⟩ := rfl

/-- Settles O19: the word 0 has no opcode. -/
theorem zeroCellFaultsAsInvalidOpcode : Obligations.ZeroCellFaultsAsInvalidOpcode :=
  fun _ hr hip h0 => step_of_decode_error (r := ⟨.invalidOpcode, 0, 0⟩) hr hip (h0 ▸ decode_zero)

/-- Settles O20: the fetch range is tested before the word is read. -/
theorem fetchAboveTheTopFaults : Obligations.FetchAboveTheTopFaults :=
  fun _ => step_of_ip_above_amax

/-- Settles O24: the codes as `FaultKind.code` tabulates them. -/
theorem faultCodesAreTheSpecs : Obligations.FaultCodesAreTheSpecs := rfl

/-! ### A table word placed where the step fetches (log entry 11) -/

/-- Placing a cell changes memory alone, and no cell but its own. -/
theorem placeCell_spec (s : State) (a : Nat) (v : Word) :
    ∃ m, s.placeCell a v = { s with mem := m } ∧ (∀ b, b ≠ a → m.read b = s.mem.read b) ∧
      (a ≤ Config.amax → m.read a = v) := by
  unfold State.placeCell
  split
  next => exact ⟨_, rfl, fun b hb => s.mem.read_write_other v hb, fun _ => s.mem.read_write_same a v⟩
  next h => exact ⟨s.mem, rfl, fun _ _ => rfl, fun ha => absurd ha h⟩

/-- The engine that a table word is placed in: made Running, at a valid `ip`. -/
def readyToFetch (s : State) : State :=
  { s with halted := false, fault := none, ip := if s.ip ≤ Config.amax then s.ip else 0 }

theorem readyToFetch_ip (s : State) : (readyToFetch s).ip ≤ Config.amax := by
  show (if s.ip ≤ Config.amax then s.ip else 0) ≤ Config.amax
  split <;> omega

/-- A placed table word changes memory alone, and `ip` then holds the number's first cell. -/
theorem withFetchWord_spec (s : State) (nbits w : Nat) :
    ∃ m, s.withFetchWord nbits w = { readyToFetch s with mem := m } ∧
      m.read (readyToFetch s).ip = tableCell (tableBits nbits w) 0 := by
  let t := readyToFetch s
  obtain ⟨m0, h0, -, hread0⟩ := placeCell_spec t t.ip (tableCell (tableBits nbits w) 0)
  obtain ⟨m1, h1, hread1, -⟩ := placeCell_spec { t with mem := m0 } (t.ip + 1) (tableCell (tableBits nbits w) 1)
  obtain ⟨m2, h2, hread2, -⟩ := placeCell_spec { t with mem := m1 } (t.ip + 2) (tableCell (tableBits nbits w) 2)
  obtain ⟨m3, h3, hread3, -⟩ := placeCell_spec { t with mem := m2 } (t.ip + 3) (tableCell (tableBits nbits w) 3)
  refine ⟨m3, by rw [← h3, ← h2, ← h1, ← h0]; rfl, ?_⟩
  calc m3.read t.ip
      = m2.read t.ip := hread3 _ (by omega)
    _ = m1.read t.ip := hread2 _ (by omega)
    _ = m0.read t.ip := hread1 _ (by omega)
    _ = tableCell (tableBits nbits w) 0 := hread0 (readyToFetch_ip s)

theorem decodeTableWord_eq_some {nbits w : Nat} {i : Instr} :
    decodeTableWord nbits w = some i ↔ decode (tableCell (tableBits nbits w) 0) = .ok i := by
  unfold decodeTableWord
  split
  next j h => simp [h]
  next r h => simp [h]

/-- Settles O17: the word at the placed engine's `ip` is the one the table number decodes by. -/
theorem placedTableWordIsTheOneThatRuns : Obligations.PlacedTableWordIsTheOneThatRuns := by
  intro s nbits w i hi
  obtain ⟨m, hplaced, hread⟩ := withFetchWord_spec s nbits w
  rw [hplaced]
  exact step_of_decode_ok ⟨rfl, rfl⟩ (readyToFetch_ip s) ((congrArg decode hread).trans (decodeTableWord_eq_some.1 hi))

end Sys2Proof.Proofs
end

section
/-! PROOFS. What each instruction does with operands that resolve (spec/41_arithmetic.md to spec/46_halt.md): the state it
answers, and what that state keeps. -/

namespace Sys2Proof.Proofs

open Sys2Proof.Machine Sys2Proof.Claims Sys2Proof.Laws

/-! ### Each operand shape, with its operands as integers -/

section
variable {s : State} {m1 m2 m3 : Mode} {x y : Int} {d : Nat}

theorem execBinary_of_operands (compute : Int → Int → Except Stop Word) (he : Extent s 3) (hx : SourceIs s m1 1 x)
    (hy : SourceIs s m2 2 y) (hd : DestinationIs s m3 3 d) :
    execBinary compute m1 m2 m3 s = finish s (compute x y >>= fun r => .ok ((s.memWrite d r).advance 3)) := by
  obtain ⟨v, rfl⟩ := sourceIs_word hx
  obtain ⟨w, rfl⟩ := sourceIs_word hy
  simp only [execBinary, resolveWriter_eq_ok.2 ⟨he, hx, hy, hd⟩, ok_bind, pure_eq_ok]

theorem execJump_of_operands (taken : Int → Bool) (he : Extent s 2) (hx : SourceIs s m1 1 x) (hy : SourceIs s m2 2 y) :
    execJump taken m1 m2 s = finish s (if taken x then toAddr y .invalidInstructionPointer 2 >>= fun a => .ok (s.setIp a)
      else .ok (s.advance 2)) := by
  obtain ⟨v, rfl⟩ := sourceIs_word hx
  obtain ⟨w, rfl⟩ := sourceIs_word hy
  simp only [execJump, resolveTwo_eq_ok.2 ⟨he, hx, hy⟩, ok_bind, pure_eq_ok]

theorem execAdjustRelativeBase_of_operand (he : Extent s 1) (hx : SourceIs s m1 1 x) :
    execAdjustRelativeBase m1 s = finish s (checked (s.rb.toInt + x) >>= fun r => .ok ((s.setRb r).advance 1)) := by
  obtain ⟨v, rfl⟩ := sourceIs_word hx
  simp only [execAdjustRelativeBase, resolveOne_eq_ok.2 ⟨he, hx⟩, ok_bind, pure_eq_ok]

theorem checked_of_inWord {v : Int} (h : InWord v) : checked v = .ok (toWord v) := checked_eq_ok.2 ⟨h, rfl⟩

theorem checked_of_not_inWord {v : Int} (h : ¬ InWord v) : checked v = .error (.raise ⟨.arithmeticOverflow, v, 0⟩) :=
  checked_eq_error.2 ⟨h, rfl⟩

/-! ### Add, Multiply, LessThan, Equals -/

section
variable (he : Extent s 3) (hx : SourceIs s m1 1 x) (hy : SourceIs s m2 2 y) (hd : DestinationIs s m3 3 d)
include he hx hy hd

theorem exec_add_of_inWord (h : InWord (x + y)) : exec (.add m1 m2 m3) s = .next (stored s d (x + y) 3) := by
  simp only [exec, execAdd, execBinary_of_operands _ he hx hy hd, checked_of_inWord h, ok_bind, finish_ok]
  rfl

theorem exec_add_of_overflow (h : ¬ InWord (x + y)) :
    exec (.add m1 m2 m3) s = .next (faulted s .arithmeticOverflow (x + y) 0) := by
  simp only [exec, execAdd, execBinary_of_operands _ he hx hy hd, checked_of_not_inWord h, error_bind, finish_raise,
    takeFault_eq_faulted]

theorem exec_multiply_of_inWord (h : InWord (x * y)) : exec (.multiply m1 m2 m3) s = .next (stored s d (x * y) 3) := by
  simp only [exec, execMultiply, execBinary_of_operands _ he hx hy hd, checked_of_inWord h, ok_bind, finish_ok]
  rfl

theorem exec_multiply_of_overflow (h : ¬ InWord (x * y)) :
    exec (.multiply m1 m2 m3) s = .next (faulted s .arithmeticOverflow (x * y) 0) := by
  simp only [exec, execMultiply, execBinary_of_operands _ he hx hy hd, checked_of_not_inWord h, error_bind, finish_raise,
    takeFault_eq_faulted]

theorem exec_lessThan_of_operands :
    exec (.lessThan m1 m2 m3) s = .next (stored s d (if x < y then 1 else 0) 3) := by
  simp only [exec, execLessThan, execBinary_of_operands _ he hx hy hd, lessThanWord, truthWord_eq, decide_eq_true_eq,
    ok_bind, finish_ok]
  rfl

theorem exec_equals_of_operands :
    exec (.equals m1 m2 m3) s = .next (stored s d (if x = y then 1 else 0) 3) := by
  simp only [exec, execEquals, execBinary_of_operands _ he hx hy hd, equalsWord, truthWord_eq, decide_eq_true_eq,
    ok_bind, finish_ok]
  rfl

end

theorem inWord_truth (p : Prop) [Decidable p] : InWord (if p then 1 else 0) := by
  unfold InWord
  split <;> decide

/-- Storing a result sets its cell and advances `ip`, and keeps everything else. -/
theorem stored_spec {v : Int} (h : InWord v) (n : Nat) :
    ((stored s d v n).memRead d).toInt = v ∧ OtherCells s (stored s d v n) d ∧ (stored s d v n).ip = s.ip + 1 + n ∧
      (stored s d v n).rb = s.rb ∧ SameStatus s (stored s d v n) ∧ SamePorts s (stored s d v n) := by
  have hread : (stored s d v n).memRead d = BitVec.ofInt 64 v := s.mem.read_write_same d _
  refine ⟨?_, fun a ha => s.mem.read_write_other _ ha, rfl, rfl, ⟨rfl, rfl⟩, rfl, rfl, rfl⟩
  rw [hread, toInt_ofInt h]

/-- Settles O29: the sum is stored. -/
theorem addStoresTheExactSum : Obligations.AddStoresTheExactSum :=
  fun _ _ _ _ _ _ _ he hx hy hd h => ⟨_, exec_add_of_inWord he hx hy hd h, stored_spec h 3⟩

/-- Settles O30: the product is stored. -/
theorem multiplyStoresTheExactProduct : Obligations.MultiplyStoresTheExactProduct :=
  fun _ _ _ _ _ _ _ he hx hy hd h => ⟨_, exec_multiply_of_inWord he hx hy hd h, stored_spec h 3⟩

/-- Settles O31: 1 or 0 is stored, and either is a word. -/
theorem lessThanStoresOneOrZero : Obligations.LessThanStoresOneOrZero :=
  fun _ _ _ _ _ _ _ he hx hy hd => ⟨_, exec_lessThan_of_operands he hx hy hd, stored_spec (inWord_truth _) 3⟩

/-- Settles O32: 1 or 0 is stored, and either is a word. -/
theorem equalsStoresOneOrZero : Obligations.EqualsStoresOneOrZero :=
  fun _ _ _ _ _ _ _ he hx hy hd => ⟨_, exec_equals_of_operands he hx hy hd, stored_spec (inWord_truth _) 3⟩

/-! ### Input and Output -/

theorem exec_input_of_offered {v : Word} {rest : List Word} (he : Extent s 1) (hd : DestinationIs s m1 1 d)
    (ho : s.offered = v :: rest) :
    exec (.input m1) s =
      .next { s with mem := s.mem.write d v, ip := s.ip + 2, offered := rest, trace := s.trace ++ [.taken v] } :=
  execInput_eq_next.2 (.inl ⟨d, v, rest, resolveOneDst_eq_ok.2 ⟨he, hd⟩, ho, rfl⟩)

theorem exec_input_of_no_offer (he : Extent s 1) (hd : DestinationIs s m1 1 d) (ho : s.offered = []) :
    exec (.input m1) s = .next s :=
  execInput_eq_next.2 (.inr (.inr ⟨.inr ⟨d, resolveOneDst_eq_ok.2 ⟨he, hd⟩, ho⟩, rfl⟩))

theorem exec_output_of_ready {v : Word} (he : Extent s 1) (hv : SourceIs s m1 1 v.toInt) (hr : s.sinkReady = true) :
    exec (.output m1) s = .next { s with ip := s.ip + 2, trace := s.trace ++ [.given v] } :=
  execOutput_eq_next.2 (.inl ⟨v, resolveOne_eq_ok.2 ⟨he, hv⟩, hr, rfl⟩)

theorem exec_output_of_not_ready (he : Extent s 1) (hx : SourceIs s m1 1 x) (hr : s.sinkReady = false) :
    exec (.output m1) s = .next s := by
  obtain ⟨v, rfl⟩ := sourceIs_word hx
  exact execOutput_eq_next.2 (.inr (.inr ⟨.inr ⟨v, resolveOne_eq_ok.2 ⟨he, hx⟩, hr⟩, rfl⟩))

/-- Settles O33: the first offered word goes to the destination. -/
theorem inputStoresTheOfferedWord : Obligations.InputStoresTheOfferedWord :=
  fun _ s d v _ he hd ho => ⟨_, exec_input_of_offered he hd ho, s.mem.read_write_same d v,
    fun _ ha => s.mem.read_write_other v ha, rfl, rfl, ⟨rfl, rfl⟩, rfl, rfl, rfl⟩

/-- Settles O34: the operand goes to the host. -/
theorem outputGivesItsOperand : Obligations.OutputGivesItsOperand :=
  fun _ _ _ he hv hr => ⟨_, exec_output_of_ready he hv hr, rfl, rfl, fun _ => rfl, rfl, ⟨rfl, rfl⟩, rfl, rfl⟩

/-- Settles O35: a port that does not answer ends the stages in a wait. -/
theorem waitingOnAPortChangesNothing : Obligations.WaitingOnAPortChangesNothing :=
  ⟨fun _ _ _ => exec_input_of_no_offer, fun _ _ _ => exec_output_of_not_ready⟩

/-! ### The jumps -/

/-- A word that is not negative is a valid address. -/
theorem toAddr_word_of_nonneg {w : Word} (h : 0 ≤ w.toInt) (kind : FaultKind) (k : Nat) :
    toAddr w.toInt kind k = .ok w.toInt.toNat := by
  have hw := (inWord_toInt w).2
  rw [wmax_eq] at hw
  rw [toAddr_eq_ok, amax_eq]
  omega

section
variable {taken : Int → Bool} (he : Extent s 2) (hx : SourceIs s m1 1 x) (hy : SourceIs s m2 2 y)
include he hx hy

theorem execJump_of_taken (ht : taken x = true) (h : 0 ≤ y) : execJump taken m1 m2 s = .next (s.setIp y.toNat) := by
  obtain ⟨w, rfl⟩ := sourceIs_word hy
  simp only [execJump_of_operands taken he hx hy, ht, if_true, toAddr_word_of_nonneg h, ok_bind, finish_ok]

theorem execJump_of_taken_negative (ht : taken x = true) (h : y < 0) :
    execJump taken m1 m2 s = .next (faulted s .invalidInstructionPointer y 2) := by
  simp only [execJump_of_operands taken he hx hy, ht, if_true, toAddr_eq_error.2 ⟨.inl h, rfl⟩, error_bind, finish_raise,
    takeFault_eq_faulted]

theorem execJump_of_not_taken (ht : taken x = false) : execJump taken m1 m2 s = .next (s.advance 2) := by
  simp only [execJump_of_operands taken he hx hy, ht, Bool.false_eq_true, if_false, finish_ok]

end

theorem conditionTrue_of_ne {c : Int} (h : c ≠ 0) : conditionTrue c = true := decide_eq_true h

theorem conditionTrue_zero : conditionTrue 0 = false := rfl

theorem conditionFalse_of_ne {c : Int} (h : c ≠ 0) : conditionFalse c = false := decide_eq_false h

theorem conditionFalse_zero : conditionFalse 0 = true := rfl

/-- Settles O36: the condition decides between the target and the next instruction. -/
theorem jumpIfTrueGoesToItsTarget : Obligations.JumpIfTrueGoesToItsTarget := by
  refine fun m1 m2 s c v he hc hv => ⟨fun h h0 => ?_, ?_⟩
  · exact ⟨_, execJump_of_taken he hc hv (conditionTrue_of_ne h) h0, Int.toNat_of_nonneg h0, fun _ => rfl, rfl,
      ⟨rfl, rfl⟩, rfl, rfl, rfl⟩
  · rintro rfl
    exact ⟨_, execJump_of_not_taken he hc hv conditionTrue_zero, rfl, fun _ => rfl, rfl, ⟨rfl, rfl⟩, rfl, rfl, rfl⟩

/-- Settles O37: the condition decides between the target and the next instruction. -/
theorem jumpIfFalseGoesToItsTarget : Obligations.JumpIfFalseGoesToItsTarget := by
  refine fun m1 m2 s c v he hc hv => ⟨?_, fun h => ?_⟩
  · rintro rfl h0
    exact ⟨_, execJump_of_taken he hc hv conditionFalse_zero h0, Int.toNat_of_nonneg h0, fun _ => rfl, rfl,
      ⟨rfl, rfl⟩, rfl, rfl, rfl⟩
  · exact ⟨_, execJump_of_not_taken he hc hv (conditionFalse_of_ne h), rfl, fun _ => rfl, rfl, ⟨rfl, rfl⟩, rfl, rfl, rfl⟩

/-- Settles O38: a taken jump tests its target. -/
theorem takenJumpToNegativeTargetFaults : Obligations.TakenJumpToNegativeTargetFaults := by
  refine fun m1 m2 s c v he hc hv h => ⟨fun hne => ?_, ?_⟩
  · exact execJump_of_taken_negative he hc hv (conditionTrue_of_ne hne) h
  · rintro rfl
    exact execJump_of_taken_negative he hc hv conditionFalse_zero h

/-! ### AdjustRelativeBase and Halt -/

theorem exec_adjustRelativeBase_of_inWord (he : Extent s 1) (hx : SourceIs s m1 1 x) (h : InWord (s.rb.toInt + x)) :
    exec (.adjustRelativeBase m1) s = .next ((s.setRb (toWord (s.rb.toInt + x))).advance 1) := by
  simp only [exec, execAdjustRelativeBase_of_operand he hx, checked_of_inWord h, ok_bind, finish_ok]

theorem exec_adjustRelativeBase_of_overflow (he : Extent s 1) (hx : SourceIs s m1 1 x) (h : ¬ InWord (s.rb.toInt + x)) :
    exec (.adjustRelativeBase m1) s = .next (faulted s .arithmeticOverflow (s.rb.toInt + x) 0) := by
  simp only [exec, execAdjustRelativeBase_of_operand he hx, checked_of_not_inWord h, error_bind, finish_raise,
    takeFault_eq_faulted]

end

/-- Settles O39: `rb` holds the word of the exact sum. -/
theorem adjustRelativeBaseAddsItsOperand : Obligations.AdjustRelativeBaseAddsItsOperand :=
  fun _ _ _ he hx h => ⟨_, exec_adjustRelativeBase_of_inWord he hx h, toInt_toWord h, rfl, fun _ => rfl, ⟨rfl, rfl⟩, rfl, rfl, rfl⟩

/-- Settles O41: the result is checked before it is stored. -/
theorem overflowFaultsWithTheExactResult : Obligations.OverflowFaultsWithTheExactResult :=
  ⟨fun _ _ _ _ _ _ _ he hx hy hd => ⟨exec_add_of_overflow he hx hy hd, exec_multiply_of_overflow he hx hy hd⟩,
    fun _ _ _ => exec_adjustRelativeBase_of_overflow⟩

theorem decode_halt : decode 99 = .ok .halt := decode_eq_ok_iff_encode.2 ⟨rfl, rfl⟩

/-- Settles O40: Halt's meaning sets the flag, and 99 is Halt's word. -/
theorem haltStopsInPlace : Obligations.HaltStopsInPlace :=
  fun _ => ⟨rfl, fun hr hip h99 => step_of_decode_ok (i := .halt) hr hip (h99 ▸ decode_halt)⟩

/-! ### Faults before any effect (R92, R93, R96) -/

/-- The resolution of the operands of `i` ends with `e`. -/
def OperandsFail (s : State) (e : Stop) : Instr → Prop
  | .add m1 m2 m3 | .multiply m1 m2 m3 | .lessThan m1 m2 m3 | .equals m1 m2 m3 => resolveWriter s m1 m2 m3 = .error e
  | .jumpIfTrue m1 m2 | .jumpIfFalse m1 m2 => resolveTwo s m1 m2 = .error e
  | .output m1 | .adjustRelativeBase m1 => resolveOne s m1 = .error e
  | .input m1 => resolveOneDst s m1 = .error e
  | .halt => False

theorem exec_of_operandsFail {i : Instr} {s : State} {e : Stop} (h : OperandsFail s e i) :
    exec i s = finish s (.error e) := by
  cases i with
  | add m1 m2 m3 | multiply m1 m2 m3 | lessThan m1 m2 m3 | equals m1 m2 m3 =>
    have hres : resolveWriter s m1 m2 m3 = .error e := h
    simp only [exec, execAdd, execMultiply, execLessThan, execEquals, execBinary, hres, error_bind]
  | jumpIfTrue m1 m2 | jumpIfFalse m1 m2 =>
    have hres : resolveTwo s m1 m2 = .error e := h
    simp only [exec, execJumpIfTrue, execJumpIfFalse, execJump, hres, error_bind]
  | output m1 | adjustRelativeBase m1 =>
    have hres : resolveOne s m1 = .error e := h
    simp only [exec, execOutput, execAdjustRelativeBase, hres, error_bind]
  | input m1 =>
    have hres : resolveOneDst s m1 = .error e := h
    simp only [exec, execInput, hres, error_bind]
  | halt => exact h.elim

theorem operandsFail_of_extent {i : Instr} {s : State} (hi : i ≠ .halt) (h : Config.amax < s.ip + i.tag.arity) :
    OperandsFail s (.raise ⟨.invalidInstructionPointer, (s.ip : Int) + i.tag.arity, 0⟩) i := by
  have hext := extentCheck_eq_error.2 ⟨h, rfl⟩
  cases i with
  | halt => exact absurd rfl hi
  | _ => exact bind_eq_error.2 (.inl hext)

theorem exec_of_extent {i : Instr} {s : State} (hi : i ≠ .halt) (h : Config.amax < s.ip + i.tag.arity) :
    exec i s = .next (faulted s .invalidInstructionPointer (s.ip + i.tag.arity) 0) := by
  rw [exec_of_operandsFail (operandsFail_of_extent hi h), finish_raise, takeFault_eq_faulted]

/-- Settles O21: the extent check comes first in each operand shape. -/
theorem extentAboveTheTopFaults : Obligations.ExtentAboveTheTopFaults :=
  fun _ _ => exec_of_extent

/-- A source that names no bad address resolves. -/
theorem exists_sourceIs {s : State} {m : Mode} {k : Nat} (h : ∀ v, ¬ BadOperand s m k v) :
    ∃ w : Word, SourceIs s m k w.toInt := by
  cases hres : resolveSrc s k m with
  | ok w => exact ⟨w, resolveSrc_eq_ok.1 hres⟩
  | error e =>
    obtain ⟨v, hv, -⟩ := resolveSrc_eq_error.1 hres
    exact absurd hv (h v)

/-- A writable destination that names no bad address resolves. -/
theorem exists_destinationIs {s : State} {m : Mode} {k : Nat} (hm : m.writable = true) (h : ∀ v, ¬ BadOperand s m k v) :
    ∃ d, DestinationIs s m k d := by
  cases hres : resolveDst s k m with
  | ok d => exact ⟨d, resolveDst_eq_ok.1 hres⟩
  | error e =>
    obtain ⟨v, hv, -⟩ := (resolveDst_eq_error hm).1 hres
    exact absurd hv (h v)

section
variable {s : State} {i : Instr} {k : Nat} {v : Int} {m1 m2 m3 : Mode}

theorem resolveOne_of_firstBad (hi : i.modes = [m1]) (he : Extent s 1) (h : FirstBad s i k v) :
    resolveOne s m1 = .error (.raise ⟨.invalidAddress, v, k⟩) := by
  obtain ⟨hk, ⟨m, hm, hbad⟩, -⟩ := h
  rw [hi] at hm
  match k with
  | 1 => cases hm; exact resolveOne_eq_error.2 (.inr ⟨he, v, hbad, rfl⟩)
  | k + 2 => cases hm

theorem resolveOneDst_of_firstBad (hi : i.modes = [m1]) (hw : m1.writable = true) (he : Extent s 1)
    (h : FirstBad s i k v) : resolveOneDst s m1 = .error (.raise ⟨.invalidAddress, v, k⟩) := by
  obtain ⟨hk, ⟨m, hm, hbad⟩, -⟩ := h
  rw [hi] at hm
  match k with
  | 1 => cases hm; exact (resolveOneDst_eq_error hw).2 (.inr ⟨he, v, hbad, rfl⟩)
  | k + 2 => cases hm

theorem resolveTwo_of_firstBad (hi : i.modes = [m1, m2]) (he : Extent s 2) (h : FirstBad s i k v) :
    resolveTwo s m1 m2 = .error (.raise ⟨.invalidAddress, v, k⟩) := by
  obtain ⟨hk, ⟨m, hm, hbad⟩, hfirst⟩ := h
  rw [hi] at hm hfirst
  rw [resolveTwo_eq_error]
  refine .inr ⟨he, v, ?_⟩
  match k with
  | 1 => cases hm; exact .inl ⟨hbad, rfl⟩
  | 2 =>
    cases hm
    obtain ⟨x, hx⟩ := exists_sourceIs fun u => hfirst 1 m1 u le_rfl (by omega) rfl
    exact .inr ⟨x, hx, hbad, rfl⟩
  | k + 3 => cases hm

theorem resolveWriter_of_firstBad (hi : i.modes = [m1, m2, m3]) (hw : m3.writable = true) (he : Extent s 3)
    (h : FirstBad s i k v) : resolveWriter s m1 m2 m3 = .error (.raise ⟨.invalidAddress, v, k⟩) := by
  obtain ⟨hk, ⟨m, hm, hbad⟩, hfirst⟩ := h
  rw [hi] at hm hfirst
  rw [resolveWriter_eq_error hw]
  refine .inr ⟨he, v, ?_⟩
  match k with
  | 1 => cases hm; exact .inl ⟨hbad, rfl⟩
  | 2 =>
    cases hm
    obtain ⟨x, hx⟩ := exists_sourceIs fun u => hfirst 1 m1 u le_rfl (by omega) rfl
    exact .inr (.inl ⟨x, hx, hbad, rfl⟩)
  | 3 =>
    cases hm
    obtain ⟨x, hx⟩ := exists_sourceIs fun u => hfirst 1 m1 u le_rfl (by omega) rfl
    obtain ⟨y, hy⟩ := exists_sourceIs fun u => hfirst 2 m2 u (by omega) (by omega) rfl
    exact .inr (.inr ⟨x, y, hx, hy, hbad, rfl⟩)
  | k + 4 => cases hm

theorem operandsFail_of_firstBad (hwf : i.wellFormed = true) (hi : i ≠ .halt) (he : Extent s i.tag.arity)
    (h : FirstBad s i k v) : OperandsFail s (.raise ⟨.invalidAddress, v, k⟩) i := by
  cases i with
  | add | multiply | lessThan | equals => exact resolveWriter_of_firstBad rfl hwf he h
  | jumpIfTrue | jumpIfFalse => exact resolveTwo_of_firstBad rfl he h
  | output | adjustRelativeBase => exact resolveOne_of_firstBad rfl he h
  | input => exact resolveOneDst_of_firstBad rfl hwf he h
  | halt => exact absurd rfl hi

theorem exec_of_firstBad (hwf : i.wellFormed = true) (hi : i ≠ .halt) (he : Extent s i.tag.arity)
    (h : FirstBad s i k v) : exec i s = .next (faulted s .invalidAddress v k) := by
  rw [exec_of_operandsFail (operandsFail_of_firstBad hwf hi he h), finish_raise, takeFault_eq_faulted]

end

/-- Settles O22: the operands resolve in order up to the first bad one. -/
theorem firstBadOperandFaults : Obligations.FirstBadOperandFaults :=
  fun _ _ _ _ => exec_of_firstBad

end Sys2Proof.Proofs
end

section
/-! PROOFS. The step and its label are the transition relation of the rules (spec/40_engine.md R99): every transition is the
step, and every state has a transition. -/

namespace Sys2Proof.Proofs

open Sys2Proof.Machine Sys2Proof.Claims Sys2Proof.Laws

/-! ### The label of a step by its outcome (R99) -/

/-- The step from `s` answers `t` and has the label `l`. -/
def StepsTo (s : State) (l : Option Label) (t : State) : Prop := step s = .next t ∧ label s = l

theorem stepsTo_of_not_running {s : State} (h : ¬ Running s) : StepsTo s none s := by
  refine ⟨step_of_not_running h, ?_⟩
  cases hs : s.status with
  | running => exact absurd (status_eq_running.1 hs) h
  | halted | faulted => simp only [label, hs]

theorem stepsTo_fault {s : State} {kind : FaultKind} {v : Int} {k : Nat} (hr : Running s)
    (h : step s = .next (faulted s kind v k)) :
    StepsTo s (some (.fault (record s kind v k))) (faulted s kind v k) := by
  have hstatus : (nextState s).status = .faulted (record s kind v k) := by
    rw [step_eq_next_iff.1 h]; exact status_of_fault rfl
  exact ⟨h, by simp only [label, status_eq_running.2 hr, hstatus]⟩

theorem running_of_sameStatus {s t : State} (h : SameStatus s t) (hr : Running s) : Running t :=
  ⟨h.2.trans hr.1, h.1.trans hr.2⟩

theorem wellFormed_of_at {s : State} {i : Instr} (h : At s i) : i.wellFormed = true := by
  obtain ⟨-, -, hwf, -⟩ := h
  exact hwf

theorem fetch_of_at {s : State} {i : Instr} (h : At s i) : fetch s = .run i := by
  obtain ⟨hr, hip, hwf, hword⟩ := h
  exact fetch_eq_run.2 ⟨hr, hip, decode_eq_ok_iff_encode.2 ⟨hwf, hword.symm⟩⟩

theorem step_of_at {s : State} {i : Instr} (h : At s i) : step s = exec i s := step_of_run (fetch_of_at h)

theorem at_of_decode_ok {s : State} {i : Instr} (hr : Running s) (hip : s.ip ≤ Config.amax)
    (h : decode (s.memRead s.ip) = .ok i) : At s i := by
  obtain ⟨hwf, hword⟩ := decode_eq_ok_iff_encode.1 h
  exact ⟨hr, hip, hwf, hword.symm⟩

section
variable {s t : State} {i : Instr} (hat : At s i)
include hat

theorem stepsTo_fault_of_exec {kind : FaultKind} {v : Int} {k : Nat} (h : exec i s = .next (faulted s kind v k)) :
    StepsTo s (some (.fault (record s kind v k))) (faulted s kind v k) :=
  stepsTo_fault hat.1 ((step_of_at hat).trans h)

theorem stepsTo_tau (hp : usesPort i = false) (h : exec i s = .next t) (hs : SameStatus s t) (htrace : t.trace = s.trace) :
    StepsTo s (some .tau) t := by
  have hstep : step s = .next t := (step_of_at hat).trans h
  have hwaits : waits s = false := waits_eq_false_of_run (fetch_of_at hat) (by simp [hp])
  have hn := step_eq_next_iff.1 hstep
  refine ⟨hstep, ?_⟩
  simp [label, status_eq_running.2 hat.1, hn, status_eq_running.2 (running_of_sameStatus hs hat.1), htrace, hwaits]

theorem stepsTo_transfer {e : PortEvent} (h : exec i s = .next t) (hs : SameStatus s t) (htrace : t.trace = s.trace ++ [e]) :
    StepsTo s (some e.label) t := by
  have hstep : step s = .next t := (step_of_at hat).trans h
  have hn := step_eq_next_iff.1 hstep
  exact ⟨hstep, label_of_transfer hat.1 (hn ▸ running_of_sameStatus hs hat.1) (hn ▸ htrace)⟩

theorem stepsTo_wait (hp : usesPort i = true) (h : exec i s = .next s) : StepsTo s none s := by
  have hstep : step s = .next s := (step_of_at hat).trans h
  exact ⟨hstep, label_eq_none_of_unchanged (fetch_of_at hat) hp (step_eq_next_iff.1 hstep)⟩

end

theorem stepsTo_halt {s : State} (hat : At s .halt) : StepsTo s (some .halt) { s with halted := true } := by
  have hstep : step s = .next { s with halted := true } := step_of_at hat
  have hstatus : (nextState s).status = .halted := by
    rw [step_eq_next_iff.1 hstep]; exact status_eq_halted.2 ⟨hat.1.1, rfl⟩
  exact ⟨hstep, by simp only [label, status_eq_running.2 hat.1, hstatus]⟩

/-! ### Every transition is the step -/

theorem transition_is_step {s t : State} {l : Option Label} (h : Transition s l t) : StepsTo s l t := by
  cases h with
  | staysFaulted r hf => exact stepsTo_of_not_running fun hr => by simp [hr.1] at hf
  | staysHalted hf hh => exact stepsTo_of_not_running (not_running_of_halted hh)
  | fetchRange hr hip => exact stepsTo_fault hr (step_of_ip_above_amax hr hip)
  | decodeFault kind v p hr hip hd =>
    exact stepsTo_fault hr (step_of_decode_error hr hip ((decodeFaultsAreTheRulesFaults _ _).2 hd))
  | extent i v hat hi hv hlt =>
    subst hv
    exact stepsTo_fault_of_exec hat (exec_of_extent hi (by omega))
  | operand i k v hw hi hb => exact stepsTo_fault_of_exec hw.1 (exec_of_firstBad (wellFormed_of_at hw.1) hi hw.2 hb)
  | add m1 m2 m3 x y d hw hx hy hd h => exact stepsTo_tau hw.1 rfl (exec_add_of_inWord hw.2 hx hy hd h) ⟨rfl, rfl⟩ rfl
  | addOverflow m1 m2 m3 x y d hw hx hy hd h => exact stepsTo_fault_of_exec hw.1 (exec_add_of_overflow hw.2 hx hy hd h)
  | multiply m1 m2 m3 x y d hw hx hy hd h =>
    exact stepsTo_tau hw.1 rfl (exec_multiply_of_inWord hw.2 hx hy hd h) ⟨rfl, rfl⟩ rfl
  | multiplyOverflow m1 m2 m3 x y d hw hx hy hd h =>
    exact stepsTo_fault_of_exec hw.1 (exec_multiply_of_overflow hw.2 hx hy hd h)
  | input m d v rest hw hd ho =>
    exact stepsTo_transfer (e := .taken v) hw.1 (exec_input_of_offered hw.2 hd ho) ⟨rfl, rfl⟩ rfl
  | inputWaits m d hw hd ho => exact stepsTo_wait hw.1 rfl (exec_input_of_no_offer hw.2 hd ho)
  | output m v hw hv hs => exact stepsTo_transfer (e := .given v) hw.1 (exec_output_of_ready hw.2 hv hs) ⟨rfl, rfl⟩ rfl
  | outputWaits m x hw hx hs => exact stepsTo_wait hw.1 rfl (exec_output_of_not_ready hw.2 hx hs)
  | jumpIfTrueTaken m1 m2 c a hw hc hne ha =>
    exact stepsTo_tau hw.1 rfl (execJump_of_taken hw.2 hc ha (conditionTrue_of_ne hne) (Int.natCast_nonneg a)) ⟨rfl, rfl⟩ rfl
  | jumpIfTrueBad m1 m2 c v hw hc hne hv hneg =>
    exact stepsTo_fault_of_exec hw.1 (execJump_of_taken_negative hw.2 hc hv (conditionTrue_of_ne hne) hneg)
  | jumpIfTrueNot m1 m2 v hw hc hv =>
    exact stepsTo_tau hw.1 rfl (execJump_of_not_taken hw.2 hc hv conditionTrue_zero) ⟨rfl, rfl⟩ rfl
  | jumpIfFalseTaken m1 m2 a hw hc ha =>
    exact stepsTo_tau hw.1 rfl (execJump_of_taken hw.2 hc ha conditionFalse_zero (Int.natCast_nonneg a)) ⟨rfl, rfl⟩ rfl
  | jumpIfFalseBad m1 m2 v hw hc hv hneg =>
    exact stepsTo_fault_of_exec hw.1 (execJump_of_taken_negative hw.2 hc hv conditionFalse_zero hneg)
  | jumpIfFalseNot m1 m2 c v hw hc hne hv =>
    exact stepsTo_tau hw.1 rfl (execJump_of_not_taken hw.2 hc hv (conditionFalse_of_ne hne)) ⟨rfl, rfl⟩ rfl
  | lessThan m1 m2 m3 x y d hw hx hy hd => exact stepsTo_tau hw.1 rfl (exec_lessThan_of_operands hw.2 hx hy hd) ⟨rfl, rfl⟩ rfl
  | equals m1 m2 m3 x y d hw hx hy hd => exact stepsTo_tau hw.1 rfl (exec_equals_of_operands hw.2 hx hy hd) ⟨rfl, rfl⟩ rfl
  | adjust m x r hw hx hr =>
    have hexec := exec_adjustRelativeBase_of_inWord hw.2 hx (hr ▸ inWord_toInt r)
    rw [← hr, toWord_toInt] at hexec
    exact stepsTo_tau hw.1 rfl hexec ⟨rfl, rfl⟩ rfl
  | adjustOverflow m x v hw hx hv h =>
    subst hv
    exact stepsTo_fault_of_exec hw.1 (exec_adjustRelativeBase_of_overflow hw.2 hx h)
  | halt hat => exact stepsTo_halt hat

/-! ### Every state has a transition -/

/-- No parameter in the list of modes names a bad address. -/
def AllOperandsGood (s : State) (ms : List Mode) : Prop :=
  ∀ k, 1 ≤ k → ∀ m, ms[k - 1]? = some m → ∀ v, ¬ BadOperand s m k v

/-- Where no parameter is the first that names no cell, every parameter names one. -/
theorem allOperandsGood_of_not_firstBad {s : State} {i : Instr} (h : ∀ k v, ¬ FirstBad s i k v) :
    AllOperandsGood s i.modes := by
  intro k
  induction k using Nat.strong_induction_on with
  | _ k ih => exact fun hk m hm v hbad => h k v ⟨hk, ⟨m, hm, hbad⟩, fun j m' u hj hlt hm' => ih j hlt hj m' hm' u⟩

section
variable {s : State} {m1 m2 m3 : Mode}

theorem exists_transition_of_add (hw : Whole s (.add m1 m2 m3)) {x y : Int} {d : Nat} (hx : SourceIs s m1 1 x)
    (hy : SourceIs s m2 2 y) (hd : DestinationIs s m3 3 d) : ∃ l t, Transition s l t := by
  by_cases h : InWord (x + y)
  · exact ⟨_, _, .add s m1 m2 m3 x y d hw hx hy hd h⟩
  · exact ⟨_, _, .addOverflow s m1 m2 m3 x y d hw hx hy hd h⟩

theorem exists_transition_of_multiply (hw : Whole s (.multiply m1 m2 m3)) {x y : Int} {d : Nat} (hx : SourceIs s m1 1 x)
    (hy : SourceIs s m2 2 y) (hd : DestinationIs s m3 3 d) : ∃ l t, Transition s l t := by
  by_cases h : InWord (x * y)
  · exact ⟨_, _, .multiply s m1 m2 m3 x y d hw hx hy hd h⟩
  · exact ⟨_, _, .multiplyOverflow s m1 m2 m3 x y d hw hx hy hd h⟩

theorem exists_transition_of_input (hw : Whole s (.input m1)) {d : Nat} (hd : DestinationIs s m1 1 d) :
    ∃ l t, Transition s l t := by
  cases ho : s.offered with
  | nil => exact ⟨_, _, .inputWaits s m1 d hw hd ho⟩
  | cons v rest => exact ⟨_, _, .input s m1 d v rest hw hd ho⟩

theorem exists_transition_of_output (hw : Whole s (.output m1)) {v : Word} (hv : SourceIs s m1 1 v.toInt) :
    ∃ l t, Transition s l t := by
  cases hs : s.sinkReady with
  | false => exact ⟨_, _, .outputWaits s m1 _ hw hv hs⟩
  | true => exact ⟨_, _, .output s m1 v hw hv hs⟩

theorem exists_transition_of_jumpIfTrue (hw : Whole s (.jumpIfTrue m1 m2)) {c v : Int} (hc : SourceIs s m1 1 c)
    (hv : SourceIs s m2 2 v) : ∃ l t, Transition s l t := by
  by_cases h0 : c = 0
  · subst h0; exact ⟨_, _, .jumpIfTrueNot s m1 m2 v hw hc hv⟩
  · obtain hneg | hpos := lt_or_ge v 0
    · exact ⟨_, _, .jumpIfTrueBad s m1 m2 c v hw hc h0 hv hneg⟩
    · lift v to Nat using hpos
      exact ⟨_, _, .jumpIfTrueTaken s m1 m2 c v hw hc h0 hv⟩

theorem exists_transition_of_jumpIfFalse (hw : Whole s (.jumpIfFalse m1 m2)) {c v : Int} (hc : SourceIs s m1 1 c)
    (hv : SourceIs s m2 2 v) : ∃ l t, Transition s l t := by
  by_cases h0 : c = 0
  · subst h0
    obtain hneg | hpos := lt_or_ge v 0
    · exact ⟨_, _, .jumpIfFalseBad s m1 m2 v hw hc hv hneg⟩
    · lift v to Nat using hpos
      exact ⟨_, _, .jumpIfFalseTaken s m1 m2 v hw hc hv⟩
  · exact ⟨_, _, .jumpIfFalseNot s m1 m2 c v hw hc h0 hv⟩

theorem exists_transition_of_adjustRelativeBase (hw : Whole s (.adjustRelativeBase m1)) {x : Int}
    (hx : SourceIs s m1 1 x) : ∃ l t, Transition s l t := by
  by_cases h : InWord (s.rb.toInt + x)
  · exact ⟨_, _, .adjust s m1 x (toWord (s.rb.toInt + x)) hw hx (toInt_toWord h)⟩
  · exact ⟨_, _, .adjustOverflow s m1 x _ hw hx rfl h⟩

end

theorem exists_writer_operands {s : State} {m1 m2 m3 : Mode} (hw : m3.writable = true)
    (h : AllOperandsGood s [m1, m2, m3]) : ∃ x y d, SourceIs s m1 1 x ∧ SourceIs s m2 2 y ∧ DestinationIs s m3 3 d := by
  obtain ⟨x, hx⟩ := exists_sourceIs (h 1 le_rfl m1 rfl)
  obtain ⟨y, hy⟩ := exists_sourceIs (h 2 (by omega) m2 rfl)
  obtain ⟨d, hd⟩ := exists_destinationIs hw (h 3 (by omega) m3 rfl)
  exact ⟨x.toInt, y.toInt, d, hx, hy, hd⟩

theorem exists_jump_operands {s : State} {m1 m2 : Mode} (h : AllOperandsGood s [m1, m2]) :
    ∃ c v, SourceIs s m1 1 c ∧ SourceIs s m2 2 v := by
  obtain ⟨c, hc⟩ := exists_sourceIs (h 1 le_rfl m1 rfl)
  obtain ⟨v, hv⟩ := exists_sourceIs (h 2 (by omega) m2 rfl)
  exact ⟨c.toInt, v.toInt, hc, hv⟩

/-- An instruction whose cells exist and whose parameters all name cells has a transition. -/
theorem exists_transition_of_operands {s : State} {i : Instr} (hw : Whole s i) (h : AllOperandsGood s i.modes) :
    ∃ l t, Transition s l t := by
  have hwf : i.wellFormed = true := wellFormed_of_at hw.1
  cases i with
  | add m1 m2 m3 =>
    obtain ⟨x, y, d, hx, hy, hd⟩ := exists_writer_operands hwf h
    exact exists_transition_of_add hw hx hy hd
  | multiply m1 m2 m3 =>
    obtain ⟨x, y, d, hx, hy, hd⟩ := exists_writer_operands hwf h
    exact exists_transition_of_multiply hw hx hy hd
  | lessThan m1 m2 m3 =>
    obtain ⟨x, y, d, hx, hy, hd⟩ := exists_writer_operands hwf h
    exact ⟨_, _, .lessThan s m1 m2 m3 x y d hw hx hy hd⟩
  | equals m1 m2 m3 =>
    obtain ⟨x, y, d, hx, hy, hd⟩ := exists_writer_operands hwf h
    exact ⟨_, _, .equals s m1 m2 m3 x y d hw hx hy hd⟩
  | jumpIfTrue m1 m2 =>
    obtain ⟨c, v, hc, hv⟩ := exists_jump_operands h
    exact exists_transition_of_jumpIfTrue hw hc hv
  | jumpIfFalse m1 m2 =>
    obtain ⟨c, v, hc, hv⟩ := exists_jump_operands h
    exact exists_transition_of_jumpIfFalse hw hc hv
  | input m1 =>
    obtain ⟨d, hd⟩ := exists_destinationIs hwf (h 1 le_rfl m1 rfl)
    exact exists_transition_of_input hw hd
  | output m1 =>
    obtain ⟨v, hv⟩ := exists_sourceIs (h 1 le_rfl m1 rfl)
    exact exists_transition_of_output hw hv
  | adjustRelativeBase m1 =>
    obtain ⟨x, hx⟩ := exists_sourceIs (h 1 le_rfl m1 rfl)
    exact exists_transition_of_adjustRelativeBase hw hx
  | halt => exact ⟨_, _, .halt s hw.1⟩

theorem exists_transition_of_at {s : State} {i : Instr} (hat : At s i) : ∃ l t, Transition s l t := by
  by_cases hi : i = .halt
  · subst hi; exact ⟨_, _, .halt s hat⟩
  by_cases he : Extent s i.tag.arity
  · by_cases hbad : ∃ k v, FirstBad s i k v
    · obtain ⟨k, v, hb⟩ := hbad
      exact ⟨_, _, .operand s i k v ⟨hat, he⟩ hi hb⟩
    · simp only [not_exists] at hbad
      exact exists_transition_of_operands ⟨hat, he⟩ (allOperandsGood_of_not_firstBad hbad)
  · exact ⟨_, _, .extent s i _ hat hi rfl (by unfold Extent at he; omega)⟩

theorem exists_transition (s : State) : ∃ l t, Transition s l t := by
  by_cases hr : Running s
  · obtain hip | hip := Nat.lt_or_ge Config.amax s.ip
    · exact ⟨_, _, .fetchRange s hr hip⟩
    cases hd : decode (s.memRead s.ip) with
    | error r => exact ⟨_, _, .decodeFault s r.kind r.value r.param hr hip ((decodeFaultsAreTheRulesFaults _ _).1 hd)⟩
    | ok i => exact exists_transition_of_at (at_of_decode_ok hr hip hd)
  · cases hf : s.fault with
    | some r => exact ⟨_, _, .staysFaulted s r hf⟩
    | none => exact ⟨_, _, .staysHalted s hf (by simpa [Running, hf] using hr)⟩

/-- Settles O27: every transition is the step, and since every state has a transition, the step is one. -/
theorem transitionsAreTheSteps : Obligations.TransitionsAreTheSteps := by
  intro s t l
  refine ⟨transition_is_step, ?_⟩
  rintro ⟨hs, rfl⟩
  obtain ⟨l, u, h⟩ := exists_transition s
  obtain ⟨hs', hl⟩ := transition_is_step h
  cases hs'.symm.trans hs
  exact hl ▸ h

end Sys2Proof.Proofs
end

section
/-! PROOFS. The invariant of the state (spec/10_state.md R22, R25, R26, R31; spec/60_exceptions.md R171): every transition of
the rules keeps it, so the step does. -/

namespace Sys2Proof.Proofs

open Sys2Proof.Machine Sys2Proof.Claims Sys2Proof.Laws

/-- The step is the transition with its label. -/
theorem transition_of_step {s t : State} (h : step s = .next t) : Transition s (label s) t :=
  (transitionsAreTheSteps s t (label s)).2 ⟨h, rfl⟩

theorem exists_transition_of_step {s t : State} (h : step s = .next t) : ∃ l, Transition s l t :=
  ⟨label s, transition_of_step h⟩

theorem running_of_whole {s : State} {i : Instr} (h : Whole s i) : Running s := h.1.1

/-! ### A state without a fault -/

/-- Without a fault, the invariant is the canonical memory and the range of `ip`. -/
theorem inv_of_no_fault {s : State} (hf : s.fault = none) (hm : s.mem.wf) (hip : s.ip ≤ Config.amax + 1) : Inv s where
  memory := hm
  ipRange := hip
  status _ := hf
  fits r hr := by simp [hf] at hr

theorem source_le_amax {s : State} {m : Mode} {k a : Nat} (h : SourceIs s m k a) : a ≤ Config.amax := by
  obtain ⟨w, hw⟩ := sourceIs_word h
  have hrange := (inWord_toInt w).2
  rw [wmax_eq] at hrange
  rw [amax_eq]
  omega

theorem inv_stored {s : State} {m : Mode} {k d n : Nat} (hinv : Inv s) (hr : Running s) (he : Extent s n)
    (hd : DestinationIs s m k d) (v : Int) : Inv (stored s d v n) :=
  inv_of_no_fault hr.1 (Memory.wf_write hinv.memory hd.2 _) (advances_of_extent he rfl).2

/-! ### The records of the faults (R171) -/

theorem inv_faulted {s : State} {kind : FaultKind} {v : Int} {k : Nat} (hinv : Inv s) (hr : Running s)
    (h : RecordFits s (record s kind v k)) : Inv (faulted s kind v k) where
  memory := hinv.memory
  ipRange := hinv.ipRange
  status hh := absurd hh (by simp [faulted, hr.2])
  fits _ hrec := by cases hrec; exact h

theorem tag_arity_le (t : Tag) : t.arity ≤ 3 := by
  cases t <;> decide

theorem tag_dest_eq_some {t : Tag} {k : Nat} (h : t.dest = some k) : k = 3 ∨ k = 1 := by
  cases t <;> simp_all [Tag.dest]

/-- Every fault of the decoder has the value and parameter that R171 tabulates. -/
theorem recordFits_of_decodeFault {s : State} {kind : FaultKind} {v : Int} {p : Nat}
    (h : DecodeFault (s.memRead s.ip).toInt ⟨kind, v, p⟩) : RecordFits s (record s kind v p) := by
  cases h with
  | opcode _ => exact ⟨rfl, rfl, rfl, rfl⟩
  | mode n dest k hrow h1 h2 _ _ =>
    obtain ⟨t, -, rfl, -⟩ := mem_opcodeTable.1 hrow.2
    exact ⟨rfl, rfl, rfl, h1, h2.trans (tag_arity_le t)⟩
  | excess n dest _ _ _ => exact ⟨rfl, rfl, rfl, rfl⟩
  | destination n k hrow _ _ _ =>
    obtain ⟨t, -, -, hd⟩ := mem_opcodeTable.1 hrow.2
    exact ⟨rfl, rfl, rfl, tag_dest_eq_some hd⟩

theorem recordFits_of_firstBad {s : State} {i : Instr} {k : Nat} {v : Int} (h : FirstBad s i k v) :
    RecordFits s (record s .invalidAddress v k) := by
  obtain ⟨hk, ⟨m, hm, -, hrange⟩, -⟩ := h
  obtain ⟨hlt, -⟩ := List.getElem?_eq_some_iff.1 hm
  have hlen := (modes_length i).trans_le (tag_arity_le i.tag)
  exact ⟨rfl, rfl, hrange, hk, by show k ≤ 3; omega⟩

theorem recordFits_of_overflow {s : State} {v : Int} (h : ¬ InWord v) :
    RecordFits s (record s .arithmeticOverflow v 0) := ⟨rfl, rfl, h, rfl⟩

theorem recordFits_of_ip_above {s : State} {v : Int} (h : (Config.amax : Int) < v) :
    RecordFits s (record s .invalidInstructionPointer v 0) := ⟨rfl, rfl, .inl ⟨rfl, h⟩⟩

theorem recordFits_of_target_negative {s : State} {v : Int} (h : v < 0) :
    RecordFits s (record s .invalidInstructionPointer v 2) := ⟨rfl, rfl, .inr ⟨rfl, h⟩⟩

/-! ### Every transition keeps the invariant -/

theorem transition_keeps_inv {s t : State} {l : Option Label} (hinv : Inv s) (h : Transition s l t) : Inv t := by
  cases h with
  | staysFaulted | staysHalted | inputWaits | outputWaits => exact hinv
  | fetchRange hr hip => exact inv_faulted hinv hr (recordFits_of_ip_above (by omega))
  | decodeFault kind v p hr hip hd => exact inv_faulted hinv hr (recordFits_of_decodeFault hd)
  | extent i v hat hi hv hlt => exact inv_faulted hinv hat.1 (recordFits_of_ip_above hlt)
  | operand i k v hw hi hb => exact inv_faulted hinv (running_of_whole hw) (recordFits_of_firstBad hb)
  | addOverflow m1 m2 m3 x y d hw hx hy hd ho | multiplyOverflow m1 m2 m3 x y d hw hx hy hd ho =>
    exact inv_faulted hinv (running_of_whole hw) (recordFits_of_overflow ho)
  | adjustOverflow m x v hw hx hv ho => exact inv_faulted hinv (running_of_whole hw) (recordFits_of_overflow ho)
  | jumpIfTrueBad m1 m2 c v hw hc hne hv hneg =>
    exact inv_faulted hinv (running_of_whole hw) (recordFits_of_target_negative hneg)
  | jumpIfFalseBad m1 m2 v hw hc hv hneg => exact inv_faulted hinv (running_of_whole hw) (recordFits_of_target_negative hneg)
  | add m1 m2 m3 x y d hw hx hy hd | multiply m1 m2 m3 x y d hw hx hy hd
  | lessThan m1 m2 m3 x y d hw hx hy hd | equals m1 m2 m3 x y d hw hx hy hd =>
    exact inv_stored hinv (running_of_whole hw) hw.2 hd _
  | input m d v rest hw hd ho =>
    exact inv_of_no_fault (running_of_whole hw).1 (Memory.wf_write hinv.memory hd.2 v) (advances_of_extent hw.2 rfl).2
  | output m v hw => exact inv_of_no_fault (running_of_whole hw).1 hinv.memory (advances_of_extent hw.2 rfl).2
  | jumpIfTrueTaken m1 m2 c a hw hc hne ha =>
    exact inv_of_no_fault (running_of_whole hw).1 hinv.memory (Nat.le_succ_of_le (source_le_amax ha))
  | jumpIfFalseTaken m1 m2 a hw hc ha =>
    exact inv_of_no_fault (running_of_whole hw).1 hinv.memory (Nat.le_succ_of_le (source_le_amax ha))
  | jumpIfTrueNot m1 m2 v hw => exact inv_of_no_fault (running_of_whole hw).1 hinv.memory (advances_of_extent hw.2 rfl).2
  | jumpIfFalseNot m1 m2 c v hw => exact inv_of_no_fault (running_of_whole hw).1 hinv.memory (advances_of_extent hw.2 rfl).2
  | adjust m x r hw => exact inv_of_no_fault (running_of_whole hw).1 hinv.memory (advances_of_extent hw.2 rfl).2
  | halt hat => exact inv_of_no_fault hat.1.1 hinv.memory hinv.ipRange

/-- Settles O15: the step is a transition, and every transition keeps the invariant. -/
theorem stepKeepsTheInvariant : Obligations.StepKeepsTheInvariant :=
  fun _ _ hinv hs => transition_keeps_inv hinv (transition_of_step hs)

/-! ### Reset and construction -/

/-- Settles O13: the empty memory is canonical, and there is no fault. -/
theorem resetHasTheInvariant : Obligations.ResetHasTheInvariant :=
  inv_of_no_fault State.reset_fault Memory.wf_nil (by simp)

theorem construct_eq_some {program : List Int} {offered : List Word} {ready : Bool} {s : State} :
    State.construct program offered ready = some s ↔
      ((∀ v ∈ program, InWord v) ∧ program.length ≤ Config.amax + 1) ∧
        { State.reset with mem := Memory.load 0 (program.map toWord), offered := offered, sinkReady := ready } = s := by
  unfold State.construct
  simp only [Option.ite_none_right_eq_some, Bool.and_eq_true, List.all_eq_true, fitsWord_iff, decide_eq_true_eq,
    Option.some.injEq]

/-- Settles O14: the loaded memory is canonical, and there is no fault. -/
theorem constructedEnginesHaveTheInvariant : Obligations.ConstructedEnginesHaveTheInvariant := by
  intro program offered ready s h
  obtain ⟨⟨-, hlen⟩, rfl⟩ := construct_eq_some.1 h
  exact inv_of_no_fault rfl (Memory.wf_load (by simpa using hlen)) (Nat.zero_le _)

/-- Settles O11: construction's own test and fields, and the loaded memory reads the program. -/
theorem constructionGivesTheResetState : Obligations.ConstructionGivesTheResetState := by
  refine fun program offered ready => ⟨?_, fun s h => ?_⟩
  · simp only [Option.isSome_iff_exists, construct_eq_some, exists_and_left, exists_eq', and_true]
  · have hread := construct_memRead h
    obtain ⟨-, rfl⟩ := construct_eq_some.1 h
    refine ⟨rfl, rfl, rfl, rfl, fun a _ => hread a, fun a ha => word_ext ?_, rfl, rfl, rfl⟩
    rw [hread a, List.getD_eq_default _ _ ha]
    rfl

/-- Zero words at the end of a loaded program list no cell. -/
theorem load_append_zeros (a n : Nat) (ws : List Word) : Memory.load a (ws ++ List.replicate n 0) = Memory.load a ws := by
  induction ws generalizing a with
  | nil =>
    induction n generalizing a with
    | zero => rfl
    | succ n ih => simpa [List.replicate_succ, Memory.load] using ih (a + 1)
  | cons v ws ih => simp only [List.cons_append, Memory.load, ih]

/-- Settles O12: the zeros pass construction's test and list no cell. -/
theorem trailingZerosAreInvisible : Obligations.TrailingZerosAreInvisible := by
  intro program n offered ready hlen
  have hzero : fitsWord 0 = true := by decide
  have hwords : (program ++ List.replicate n 0).all fitsWord = program.all fitsWord := by
    simp [List.all_append, hzero]
  have hmem : Memory.load 0 ((program ++ List.replicate n 0).map toWord) = Memory.load 0 (program.map toWord) := by
    rw [List.map_append, List.map_replicate]
    exact load_append_zeros 0 n _
  have hlen' : program.length ≤ Config.amax + 1 := by omega
  simp only [State.construct, hwords, hmem, List.length_append, List.length_replicate, hlen, hlen']

/-! ### Canonical memories -/

/-- The listed cells of a canonical memory are those that do not read 0. -/
theorem mem_iff_read {m : Memory} (hm : m.wf) {c : Nat × Word} : c ∈ m ↔ m.read c.1 = c.2 ∧ c.2 ≠ 0 := by
  refine ⟨fun hc => ⟨Memory.read_of_mem hm.1 hc, (hm.2 c hc).2⟩, fun ⟨hread, hne⟩ => ?_⟩
  by_contra hc
  refine hne (hread.symm.trans (Memory.read_eq_zero fun d hd hdc => hc ?_))
  have hd2 := Memory.read_of_mem hm.1 hd
  rw [hdc, hread] at hd2
  exact Prod.ext hdc hd2.symm ▸ hd

/-- Settles O9: the memories list the same cells, each in rising order. -/
theorem equalReadsMeanEqualMemories : Obligations.EqualReadsMeanEqualMemories := by
  intro m n hm hn h
  exact hm.1.eq_of_mem_iff hn.1 fun c => by rw [mem_iff_read hm, mem_iff_read hn, h]

end Sys2Proof.Proofs
end

section
/-! PROOFS. What the host sees of a step and of a run (spec/40_engine.md R99 to R101), and what a step may change
(spec/10_state.md R23, spec/20_memory.md R51). -/

namespace Sys2Proof.Proofs

open Sys2Proof.Machine Sys2Proof.Claims Sys2Proof.Laws

/-! ### What a step may change -/

/-- Settles O43: in every other transition `rb` is the old one. -/
theorem onlyAdjustRelativeBaseWritesRb : Obligations.OnlyAdjustRelativeBaseWritesRb := by
  intro s t hs hne
  obtain ⟨l, ht⟩ := exists_transition_of_step hs
  cases ht with
  | adjust m x r hw hx hr => exact ⟨m, x, fetch_of_at hw.1, hx, hr⟩
  | _ => exact absurd rfl hne

/-- Settles O45: a step changes no cell but the one it writes. -/
theorem onlyTheDestinationCellChanges : Obligations.OnlyTheDestinationCellChanges :=
  fun _ _ _ => writes_of_memRead_ne

/-! ### Stopped and waiting engines -/

/-- A step without a label leaves the state as it was. -/
theorem nextState_of_label_none {s : State} (h : label s = none) : nextState s = s := by
  have ht : Transition s none (nextState s) := h ▸ transition_of_step (step_eq_next_iff.2 rfl)
  generalize nextState s = t at ht
  cases ht <;> rfl

/-- An engine whose step leaves the state as it was never moves. -/
theorem runSteps_of_nextState_eq {s : State} (h : nextState s = s) (k : Nat) : runSteps k s = s := by
  induction k with
  | zero => rfl
  | succ k ih => rw [runSteps, h, ih]

theorem runSteps_of_not_running {s : State} (h : ¬ Running s) (k : Nat) : runSteps k s = s :=
  runSteps_of_nextState_eq (nextState_of_not_running h) k

theorem runSteps_add (j k : Nat) (s : State) : runSteps (j + k) s = runSteps k (runSteps j s) := by
  induction j generalizing s with
  | zero => rw [Nat.zero_add, runSteps]
  | succ j ih => rw [Nat.succ_add, runSteps, runSteps, ih]

/-- Settles O25: neither a Faulted nor a Halted engine is Running. -/
theorem stoppedEngineNeverMoves : Obligations.StoppedEngineNeverMoves := by
  refine fun s k => ⟨fun r hf => ?_, fun hf hh => ?_⟩
  · have hr : ¬ Running s := fun hr => by simp [hr.1] at hf
    exact ⟨runSteps_of_not_running hr k, stepResult_of_next_fault (step_of_not_running hr) hf, (stepsTo_of_not_running hr).2⟩
  · have hr : ¬ Running s := not_running_of_halted hh
    exact ⟨runSteps_of_not_running hr k, stepResult_of_status_halted (status_eq_halted.2 ⟨hf, hh⟩),
      (stepsTo_of_not_running hr).2⟩

/-! ### The result of a step (R101) -/

/-- A waiting engine makes no transfer. -/
theorem trace_of_waits {s : State} (h : waits s = true) : (nextState s).trace = s.trace := by
  unfold waits at h
  split at h
  next => simp only [Bool.and_eq_true, decide_eq_true_eq] at h; exact h.2
  next => cases h
  next => cases h

/-- The result that the label of a Running engine's transition calls for (R101). -/
def resultOfLabel : Option Label → Option StepResult
  | none => none
  | some .tau | some (.input _) | some (.output _) => some (.ok true)
  | some .halt => some (.ok false)
  | some (.fault r) => some (.err r)

theorem resultOfLabel_transfer (e : PortEvent) : resultOfLabel (some e.label) = some (.ok true) := by
  cases e <;> rfl

theorem stepResult_eq_resultOfLabel {s : State} (hr : Running s) : stepResult s = resultOfLabel (label s) := by
  cases hs : (nextState s).status with
  | faulted r => simp only [stepResult, label, status_eq_running.2 hr, hs, resultOfLabel]
  | halted => simp only [stepResult, label, status_eq_running.2 hr, hs, resultOfLabel]
  | running =>
    simp only [stepResult, label, status_eq_running.2 hr, hs]
    cases hw : waits s with
    | true => simp only [trace_of_waits hw, List.drop_length, if_true, resultOfLabel]
    | false =>
      cases (nextState s).trace.drop s.trace.length with
      | nil => rfl
      | cons e _ => exact (resultOfLabel_transfer e).symm

/-- Settles O26: label and result are read off the same status, trace and wait. -/
theorem stepResultFollowsTheLabel : Obligations.StepResultFollowsTheLabel := by
  intro s hr
  rw [stepResult_eq_resultOfLabel hr]
  cases label s with
  | none => rfl
  | some l => cases l <;> rfl

/-! ### `run` (R100) -/

/-- What `run` has returned when it leaves a state (R100). -/
def runResultAt (s : State) : Option RunResult :=
  match s.status with
  | .running => none
  | .halted => some .ok
  | .faulted r => some (.err r)

theorem running_of_running_nextState {s : State} (h : Running (nextState s)) : Running s := by
  by_contra hr
  exact hr (nextState_of_not_running hr ▸ h)

theorem label_none_of_waits {s : State} (h : waits s = true) (hn : Running (nextState s)) : label s = none := by
  simp [label, status_eq_running.2 (running_of_running_nextState hn), status_eq_running.2 hn, trace_of_waits h, h]

theorem runResultAt_of_running {s : State} (h : Running s) : runResultAt s = none := by
  simp only [runResultAt, status_eq_running.2 h]

theorem runResultAt_eq_ok {s : State} : runResultAt s = some .ok ↔ s.status = .halted := by
  cases hs : s.status <;> simp [runResultAt, hs]

theorem runResultAt_eq_err {s : State} {r : FaultRecord} : runResultAt s = some (.err r) ↔ s.fault = some r := by
  cases hf : s.fault with
  | none => cases hh : s.halted <;> simp [runResultAt, State.status, hf, hh]
  | some q => simp [runResultAt, status_of_fault hf]

theorem not_running_of_runResultAt {s : State} (h : runResultAt s ≠ none) : ¬ Running s :=
  fun hr => h (runResultAt_of_running hr)

theorem run_succ_of_stop {s : State} (h : ¬ Running (nextState s)) (k : Nat) :
    run (k + 1) s = (nextState s, runResultAt (nextState s)) := by
  cases hs : (nextState s).status with
  | running => exact absurd (status_eq_running.1 hs) h
  | halted | faulted => simp only [run, stepResult, runResultAt, hs]

theorem run_succ_of_waits {s : State} (hn : Running (nextState s)) (hw : waits s = true) (k : Nat) :
    run (k + 1) s = (s, none) := by
  simp only [run, stepResult, status_eq_running.2 hn, hw, if_true]

theorem run_succ_of_moves {s : State} (hn : Running (nextState s)) (hw : waits s = false) (k : Nat) :
    run (k + 1) s = run k (nextState s) := by
  simp only [run, stepResult, status_eq_running.2 hn, hw, Bool.false_eq_true, if_false]

/-- From a Running engine, `run` leaves the state after as many steps as it has fuel, and its result is that state's: an
engine that stops or waits before the fuel is spent does not move again. -/
theorem run_of_running (k : Nat) {s : State} (hr : Running s) :
    run k s = (runSteps k s, runResultAt (runSteps k s)) := by
  induction k generalizing s with
  | zero => rw [run, runSteps, runResultAt_of_running hr]
  | succ k ih =>
    by_cases hn : Running (nextState s)
    · cases hw : waits s with
      | true =>
        have hs : nextState s = s := nextState_of_label_none (label_none_of_waits hw hn)
        rw [run_succ_of_waits hn hw, runSteps_of_nextState_eq hs, runResultAt_of_running hr]
      | false => rw [run_succ_of_moves hn hw, ih hn, runSteps]
    · rw [run_succ_of_stop hn, runSteps, runSteps_of_not_running hn]

/-- With fuel for a step, the same holds from every state. -/
theorem run_of_fuel {k : Nat} (hk : 1 ≤ k) (s : State) :
    run k s = (runSteps k s, runResultAt (runSteps k s)) := by
  by_cases hr : Running s
  · exact run_of_running k hr
  · obtain ⟨j, rfl⟩ := Nat.exists_eq_add_of_le' hk
    have hs : nextState s = s := nextState_of_not_running hr
    rw [run_succ_of_stop (hs.symm ▸ hr), runSteps_of_not_running hr, hs]

theorem run_fst (k : Nat) (s : State) : (run k s).1 = runSteps k s := by
  cases k with
  | zero => rfl
  | succ k => rw [run_of_fuel (Nat.le_add_left 1 k)]

/-- `run` returns only after a step, with the result of the state it leaves. -/
theorem run_snd {k : Nat} {s : State} (h : (run k s).2 ≠ none) : 1 ≤ k ∧ (run k s).2 = runResultAt (runSteps k s) := by
  cases k with
  | zero => exact absurd rfl h
  | succ k => exact ⟨Nat.le_add_left 1 k, by rw [run_of_fuel (Nat.le_add_left 1 k)]⟩

/-- Settles O28: with fuel for a step, `run` is the state after as many steps with that state's result. -/
theorem runReturnsAtHaltOrFault : Obligations.RunReturnsAtHaltOrFault := by
  refine fun s k => ⟨⟨k, le_rfl, run_fst k s⟩, fun h => ?_, fun r h => ?_, fun h n => ?_, fun hk h => ?_, fun hk r h => ?_,
    fun hr => ?_⟩
  · obtain ⟨-, hres⟩ := run_snd (h ▸ nofun : (run k s).2 ≠ none)
    rw [run_fst]
    exact (status_eq_halted.1 (runResultAt_eq_ok.1 (hres.symm.trans h))).symm
  · obtain ⟨-, hres⟩ := run_snd (h ▸ nofun : (run k s).2 ≠ none)
    rw [run_fst]
    exact runResultAt_eq_err.1 (hres.symm.trans h)
  · obtain ⟨hk, hres⟩ := run_snd h
    have hstop : ¬ Running (runSteps k s) := not_running_of_runResultAt (hres ▸ h)
    have hsteps : runSteps (k + n) s = runSteps k s := by rw [runSteps_add, runSteps_of_not_running hstop]
    rw [run_of_fuel (by omega), run_of_fuel hk, hsteps]
  · rw [run_of_fuel hk, runResultAt_eq_ok.2 h]
  · rw [run_of_fuel hk, runResultAt_eq_err.2 h]
  · have hs : Running s := by
      by_contra hs
      exact hs (runSteps_of_not_running hs k ▸ hr)
    rw [run_of_running k hs, runResultAt_of_running hr]

end Sys2Proof.Proofs
end

section
/-! PROOFS. Assembled pseudo-instructions (spec/30_encoding.md R74) and instructions that a step stores just after its own
(spec/20_memory.md R54). -/

namespace Sys2Proof.Proofs

open Sys2Proof.Machine Sys2Proof.Claims Sys2Proof.Laws

/-! ### Pseudo-instructions -/

/-- The cells of an assembled instruction: its word and its raw values (R73). -/
theorem holds_assemble {s : State} {i : Instr} {raws : List Word} (h : Holds s s.ip (assemble i raws)) :
    s.memRead s.ip = encode i ∧ ∀ k, k < raws.length → s.memRead (s.ip + (k + 1)) = raws.getD k 0 :=
  ⟨h 0 (Nat.succ_pos _), fun k hk => h (k + 1) (Nat.succ_lt_succ hk)⟩

theorem step_of_holds {s : State} {i : Instr} {raws : List Word} (hr : Running s) (hip : s.ip ≤ Config.amax)
    (hwf : i.wellFormed = true) (h : Holds s s.ip (assemble i raws)) : step s = exec i s :=
  step_of_at ⟨hr, hip, hwf, (holds_assemble h).1⟩

/-- An Immediate source is the raw value that the assembler wrote. -/
theorem sourceIs_immediate_of_holds {s : State} {i : Instr} {raws : List Word} (h : Holds s s.ip (assemble i raws))
    {k : Nat} (hk : k < raws.length) : SourceIs s .immediate (k + 1) (raws.getD k 0).toInt :=
  congrArg BitVec.toInt ((holds_assemble h).2 k hk).symm

theorem writable_of_destinationIs {s : State} {m : Mode} {k d : Nat} (h : DestinationIs s m k d) : m.writable = true := by
  cases m with
  | position | relative => rfl
  | immediate => exact h.1.elim

theorem ip_le_amax_of_extent {s : State} {n : Nat} (h : Extent s n) : s.ip ≤ Config.amax := by
  unfold Extent at h
  omega

theorem step_of_assembleJump {s : State} {t : AsmOperand} {a : Nat} (hr : Running s) (he : Extent s 2)
    (h : Holds s s.ip (assembleJump t)) (ha : SourceIs s t.mode 2 a) : step s = .next { s with ip := a } := by
  have hone : SourceIs s .immediate 1 1 := sourceIs_immediate_of_holds (k := 0) h (by simp)
  rw [step_of_holds hr (ip_le_amax_of_extent he) rfl h]
  exact execJump_of_taken he hone ha rfl (Int.natCast_nonneg a)

theorem step_of_assembleNop {s : State} (hr : Running s) (he : Extent s 2) (h : Holds s s.ip assembleNop) :
    step s = .next { s with ip := s.ip + 3 } := by
  have hzero : SourceIs s .immediate 1 0 := sourceIs_immediate_of_holds (k := 0) h (by simp)
  have hzero2 : SourceIs s .immediate 2 0 := sourceIs_immediate_of_holds (k := 1) h (by simp)
  rw [step_of_holds hr (ip_le_amax_of_extent he) rfl h]
  exact execJump_of_not_taken he hzero hzero2 rfl

theorem step_of_assembleMove {s : State} {src dst : AsmOperand} {x : Int} {d : Nat} (hr : Running s) (he : Extent s 3)
    (h : Holds s s.ip (assembleMove src dst)) (hx : SourceIs s src.mode 1 x) (hd : DestinationIs s dst.mode 3 d) :
    step s = .next (stored s d (x + 0) 3) ∧ InWord (x + 0) := by
  have hzero : SourceIs s .immediate 2 0 := sourceIs_immediate_of_holds (k := 1) h (by simp)
  have hword : InWord (x + 0) := by
    obtain ⟨w, rfl⟩ := sourceIs_word hx
    rw [add_zero]
    exact inWord_toInt w
  have hwf : (Instr.add src.mode .immediate dst.mode).wellFormed = true := writable_of_destinationIs hd
  rw [step_of_holds hr (ip_le_amax_of_extent he) hwf h]
  exact ⟨exec_add_of_inWord he hx hzero hd hword, hword⟩

/-- Settles O42: each expansion is an instruction whose constant operand is the word after it. -/
theorem pseudoInstructionsExpand : Obligations.PseudoInstructionsExpand := by
  refine ⟨fun _ _ _ => step_of_assembleJump, fun _ => step_of_assembleNop, fun s src dst x d hr he h hx hd => ?_⟩
  obtain ⟨hstep, hword⟩ := step_of_assembleMove hr he h hx hd
  have hspec := stored_spec (s := s) (d := d) hword 3
  rw [add_zero] at hstep hspec
  exact ⟨_, hstep, hspec⟩

/-! ### An instruction stored just after the one that runs -/

theorem step_of_stored_encode {s : State} {m : Mode} {i : Instr} {v : Int} (hr : Running s)
    (hd : DestinationIs s m 3 (s.ip + 4)) (hwf : i.wellFormed = true) (hv : v = (encode i).toInt) :
    step (stored s (s.ip + 4) v 3) = exec i (stored s (s.ip + 4) v 3) := by
  subst hv
  have hread := s.mem.read_write_same (s.ip + 4) (BitVec.ofInt 64 (encode i).toInt)
  exact step_of_at ⟨hr, hd.2, hwf, hread.trans BitVec.ofInt_toInt⟩

/-- Settles O51: each writer leaves `ip` at the cell it stored in. -/
theorem storedInstructionIsFetchedNext : Obligations.StoredInstructionIsFetchedNext := by
  refine ⟨fun m1 m2 m3 s x y i hr he hx hy hd hwf => ⟨fun hv => ?_, fun hv => ?_, fun hv => ?_, fun hv => ?_⟩,
    fun m s rest i hr he hd hwf ho => ?_⟩
  · exact ⟨_, exec_add_of_inWord he hx hy hd (hv ▸ inWord_toInt _), step_of_stored_encode hr hd hwf hv⟩
  · exact ⟨_, exec_multiply_of_inWord he hx hy hd (hv ▸ inWord_toInt _), step_of_stored_encode hr hd hwf hv⟩
  · exact ⟨_, exec_lessThan_of_operands he hx hy hd, step_of_stored_encode hr hd hwf hv⟩
  · exact ⟨_, exec_equals_of_operands he hx hy hd, step_of_stored_encode hr hd hwf hv⟩
  · exact ⟨_, exec_input_of_offered he hd ho, step_of_at ⟨hr, hd.2, hwf, s.mem.read_write_same _ _⟩⟩

end Sys2Proof.Proofs
end

section
/-! PROOFS. A host that reacts to the trace is a fixed list of input words (spec/42_io.md R120, R123): what a step reads of the
ports, and the list that a run with the host takes. -/

namespace Sys2Proof.Proofs

open Sys2Proof.Machine Sys2Proof.Claims Sys2Proof.Laws

/-! ### What a step reads of the ports -/

/-- The state with the words `ws` on offer and the output port's readiness `r`. -/
def withPorts (s : State) (ws : List Word) (r : Bool) : State := { s with offered := ws, sinkReady := r }

@[simp] theorem fetch_withPorts (s : State) (ws : List Word) (r : Bool) : fetch (withPorts s ws r) = fetch s := rfl

/-- How what `f` does from `s` to `t` depends on the ports: not at all, on the first word on offer, on the host taking a word,
or on a wait for either. -/
inductive PortUse (f : State → Host.Outcome State Fault Refusal) (s t : State) : Prop
  | none : (∀ ws r, f (withPorts s ws r) = .next (withPorts t ws r)) → PortUse f s t
  | takes (v : Word) : (∀ ws r, f (withPorts s (v :: ws) r) = .next (withPorts t ws r)) → PortUse f s t
  | gives : (∀ ws, f (withPorts s ws true) = .next (withPorts t ws true)) → PortUse f s t
  | inputWaits : t = s → (∀ r, f (withPorts s [] r) = .next (withPorts s [] r)) → PortUse f s t
  | outputWaits : t = s → s.sinkReady = false → PortUse f s t

theorem execBinary_portUse {compute : Int → Int → Except Stop Word} {m1 m2 m3 : Mode} {s t : State}
    (h : execBinary compute m1 m2 m3 s = .next t) : PortUse (execBinary compute m1 m2 m3) s t := by
  refine .none fun ws r => execBinary_eq_next.2 ?_
  obtain ⟨x, y, d, v, hres, hc, rfl⟩ | ⟨q, hres, rfl⟩ | ⟨hres, rfl⟩ := execBinary_eq_next.1 h
  · exact .inl ⟨x, y, d, v, hres, hc, rfl⟩
  · exact .inr (.inl ⟨q, hres, rfl⟩)
  · exact .inr (.inr ⟨hres, rfl⟩)

theorem execJump_portUse {taken : Int → Bool} {m1 m2 : Mode} {s t : State} (h : execJump taken m1 m2 s = .next t) :
    PortUse (execJump taken m1 m2) s t := by
  refine .none fun ws r => execJump_eq_next.2 ?_
  obtain ⟨c, v, hres, ht⟩ | ⟨q, hres, rfl⟩ | ⟨hres, rfl⟩ := execJump_eq_next.1 h
  · refine .inl ⟨c, v, hres, ?_⟩
    split at ht
    next hc => obtain ⟨a, ha, rfl⟩ := ht; rw [if_pos hc]; exact ⟨a, ha, rfl⟩
    next hc => subst ht; rw [if_neg hc]; rfl
  · exact .inr (.inl ⟨q, hres, rfl⟩)
  · exact .inr (.inr ⟨hres, rfl⟩)

theorem execAdjustRelativeBase_portUse {m : Mode} {s t : State} (h : execAdjustRelativeBase m s = .next t) :
    PortUse (execAdjustRelativeBase m) s t := by
  refine .none fun ws r => execAdjustRelativeBase_eq_next.2 ?_
  obtain ⟨x, v, hres, hc, rfl⟩ | ⟨q, hres, rfl⟩ | ⟨hres, rfl⟩ := execAdjustRelativeBase_eq_next.1 h
  · exact .inl ⟨x, v, hres, hc, rfl⟩
  · exact .inr (.inl ⟨q, hres, rfl⟩)
  · exact .inr (.inr ⟨hres, rfl⟩)

theorem execInput_portUse {m : Mode} {s t : State} (h : execInput m s = .next t) : PortUse (execInput m) s t := by
  obtain ⟨d, v, rest, hres, -, rfl⟩ | ⟨q, hres, rfl⟩ | ⟨hwait | ⟨d, hres, -⟩, rfl⟩ := execInput_eq_next.1 h
  · exact .takes v fun ws r => execInput_eq_next.2 (.inl ⟨d, v, ws, hres, rfl, rfl⟩)
  · exact .none fun ws r => execInput_eq_next.2 (.inr (.inl ⟨q, hres, rfl⟩))
  · exact .inputWaits rfl fun r => execInput_eq_next.2 (.inr (.inr ⟨.inl hwait, rfl⟩))
  · exact .inputWaits rfl fun r => execInput_eq_next.2 (.inr (.inr ⟨.inr ⟨d, hres, rfl⟩, rfl⟩))

theorem execOutput_portUse {m : Mode} {s t : State} (h : execOutput m s = .next t) : PortUse (execOutput m) s t := by
  obtain ⟨v, hres, -, rfl⟩ | ⟨q, hres, rfl⟩ | ⟨hwait | ⟨v, -, hready⟩, rfl⟩ := execOutput_eq_next.1 h
  · exact .gives fun ws => execOutput_eq_next.2 (.inl ⟨v, hres, rfl, rfl⟩)
  · exact .none fun ws r => execOutput_eq_next.2 (.inr (.inl ⟨q, hres, rfl⟩))
  · exact .none fun ws r => execOutput_eq_next.2 (.inr (.inr ⟨.inl hwait, rfl⟩))
  · exact .outputWaits rfl hready

theorem exec_portUse {i : Instr} {s t : State} (h : exec i s = .next t) : PortUse (exec i) s t := by
  cases i with
  | add => exact execBinary_portUse (compute := fun x y => checked (x + y)) h
  | multiply => exact execBinary_portUse (compute := fun x y => checked (x * y)) h
  | lessThan => exact execBinary_portUse (compute := fun x y => .ok (lessThanWord x y)) h
  | equals => exact execBinary_portUse (compute := fun x y => .ok (equalsWord x y)) h
  | jumpIfTrue | jumpIfFalse => exact execJump_portUse h
  | adjustRelativeBase => exact execAdjustRelativeBase_portUse h
  | input => exact execInput_portUse h
  | output => exact execOutput_portUse h
  | halt => cases h; exact .none fun ws r => rfl

theorem step_withPorts_of_run {s : State} {i : Instr} (h : fetch s = .run i) (ws : List Word) (r : Bool) :
    step (withPorts s ws r) = exec i (withPorts s ws r) := step_of_run ((fetch_withPorts s ws r).trans h)

theorem step_portUse {s t : State} (h : step s = .next t) : PortUse step s t := by
  obtain ⟨hr, rfl⟩ | ⟨q, hf, rfl⟩ | ⟨i, hf, he⟩ := step_cases h
  · exact .none fun ws r => step_of_not_running hr
  · exact .none fun ws r => step_of_raise ((fetch_withPorts s ws r).trans hf)
  · cases exec_portUse he with
    | none hu => exact .none fun ws r => (step_withPorts_of_run hf ws r).trans (hu ws r)
    | takes v hu => exact .takes v fun ws r => (step_withPorts_of_run hf (v :: ws) r).trans (hu ws r)
    | gives hu => exact .gives fun ws => (step_withPorts_of_run hf ws true).trans (hu ws)
    | inputWaits ht hu => exact .inputWaits ht fun r => (step_withPorts_of_run hf [] r).trans (hu r)
    | outputWaits ht hready => exact .outputWaits ht hready

/-! ### The run with the host and the run with the list -/

/-- The engine and its transfers, without the host's present offer. -/
def withoutOffer (s : State) : State := withPorts s [] true

theorem withoutOffer_eq_iff {s t : State} :
    withoutOffer s = withoutOffer t ↔
      s.mem = t.mem ∧ s.ip = t.ip ∧ s.rb = t.rb ∧ s.halted = t.halted ∧ s.fault = t.fault ∧ s.trace = t.trace := by
  simp [withoutOffer, withPorts]

/-- The list `ws` on offer for `n` steps gives the engine that the host's `k` steps give. -/
def SimulatedBy (h : HostStrategy) (k : Nat) (s : State) (ws : List Word) (n : Nat) : Prop :=
  n ≤ k ∧ ((∀ tr, h.sink tr = true) → n = k) ∧
    withoutOffer (runWithHost h k s) = withoutOffer (runSteps n (withPorts s ws true))

/-- A host that the engine waits for never changes its answer, so the run stays where it is. -/
theorem runWithHost_of_wait {h : HostStrategy} {s : State} (hw : nextState (s.answeredBy h) = s.answeredBy h) (k : Nat) :
    withoutOffer (runWithHost h k s) = withoutOffer s := by
  induction k generalizing s with
  | zero => rfl
  | succ k ih =>
    rw [runWithHost, hw]
    exact ih hw

/-- A step that the list makes as the host does puts that step in front of both runs. -/
theorem simulatedBy_succ {h : HostStrategy} {k n : Nat} {s t : State} {ws ws' : List Word}
    (ht : nextState (s.answeredBy h) = t) (hstep : step (withPorts s ws' true) = .next (withPorts t ws true))
    (hsim : SimulatedBy h k t ws n) : SimulatedBy h (k + 1) s ws' (n + 1) := by
  obtain ⟨hle, hall, heq⟩ := hsim
  refine ⟨Nat.succ_le_succ hle, fun hs => congrArg (· + 1) (hall hs), ?_⟩
  rw [runWithHost, ht, heq, runSteps, step_eq_next_iff.1 hstep]

theorem exists_simulatedBy (h : HostStrategy) (k : Nat) (s : State) : ∃ ws n, SimulatedBy h k s ws n := by
  induction k generalizing s with
  | zero => exact ⟨[], 0, le_rfl, fun _ => rfl, rfl⟩
  | succ k ih =>
    obtain ⟨t, ht⟩ := step_is_next (s.answeredBy h)
    have hn := step_eq_next_iff.1 ht
    obtain ⟨ws, n, hsim⟩ := ih t
    cases step_portUse ht with
    | none hu => exact ⟨ws, n + 1, simulatedBy_succ hn (hu ws true) hsim⟩
    | takes v hu => exact ⟨v :: ws, n + 1, simulatedBy_succ hn (hu ws true) hsim⟩
    | gives hu => exact ⟨ws, n + 1, simulatedBy_succ hn (hu ws) hsim⟩
    | inputWaits hts hu =>
      have hstay : nextState (withPorts s [] true) = withPorts s [] true := step_eq_next_iff.1 (hu true)
      refine ⟨[], k + 1, le_rfl, fun _ => rfl, ?_⟩
      rw [runWithHost_of_wait (hn.trans hts), runSteps_of_nextState_eq hstay]
      rfl
    | outputWaits hts hready =>
      refine ⟨[], 0, Nat.zero_le _, fun hall => absurd (hall s.trace) (by simpa using hready), ?_⟩
      exact runWithHost_of_wait (hn.trans hts) (k + 1)

/-- Settles O50: the list of the words the run takes simulates it, up to the host's present offer. -/
theorem hostStrategyRunIsAnInputListRun : Obligations.HostStrategyRunIsAnInputListRun := by
  intro h s k
  obtain ⟨ws, n, hle, hall, heq⟩ := exists_simulatedBy h k s
  exact ⟨ws, n, hle, hall, withoutOffer_eq_iff.1 heq⟩

end Sys2Proof.Proofs
end
